-- ==== Sys2Proof/Word.lean ====
section
/-! DEFINITION. The words of the machine (00_scope.md R12, R13): 8-bit bytes, 16-bit words, 12-bit
addresses as an instruction carries them. All are unsigned; the only widening is with zero bits. -/

namespace Sys2Proof

/-- An 8-bit value: a memory cell, a general register, a timer, an immediate `kk`. -/
abbrev Byte := BitVec 8

/-- A 16-bit value: the instruction word, `I`, `pc`, a return address. -/
abbrev Word := BitVec 16

/-- The 12-bit address `nnn` of an instruction. -/
abbrev Addr12 := BitVec 12

/-- The index of a general register, V0 to VF (R74: every value 0 to 15 names one). -/
abbrev RegIdx := Fin 16

/-- `zext_16` (R13): widening with zero bits. -/
abbrev zext16 {n : Nat} (v : BitVec n) : Word := v.setWidth 16

/-- A word from its two bytes, high byte first (R56, R81). -/
abbrev wordOfBytes (hi lo : Byte) : Word := hi ++ lo

end Sys2Proof
end

