-- ==== Sys2Proof/Config.lean ====
section
/-! DEFINITION. What an implementation fixes (00_scope.md R9) and what the spec leaves open (R10). The open
parameters have no body: a claim about them holds whatever they are. -/

namespace Sys2Proof.Config

/-- MEM_SIZE (R9): addressable cells, addresses 0 to 4095. -/
@[simp] abbrev memSize : Nat := 4096

/-- PC_RESET (R9): the program counter after construction. -/
@[simp] abbrev pcReset : Word := 512#16

/-- STACK_DEPTH (R9): the most return addresses the call stack holds. -/
@[simp] abbrev stackDepth : Nat := 16

/-- FONT_BASE (R9): the address of the first font byte. -/
@[simp] abbrev fontBase : Nat := 80

/-- FONT_GLYPH_BYTES (R9): bytes of one glyph. -/
@[simp] abbrev fontGlyphBytes : Nat := 5

/-- FONT_SIZE (R9): 16 glyphs of 5 bytes, so the font fills [80, 160). -/
@[simp] abbrev fontSize : Nat := 80

/-- LOAD_BASE (R9): the address of the first byte of a program image. -/
@[simp] abbrev loadBase : Nat := 512

/-- MAX_IMAGE (R9): the largest image that fits, 4096 - 512. -/
@[simp] abbrev maxImage : Nat := 3584

/-- FLAG_REG (R9, R23): the index of VF. -/
@[simp] abbrev flagReg : RegIdx := 15

/-- The host's choice after an unknown opcode (R10, R230; D1). -/
inductive UnknownOpcodePolicy where
  /-- The step sets `fault` and the machine halts. -/
  | halt
  /-- `fault` stays as it is; the next step fetches the word after the unknown one. -/
  | carryOn
  deriving DecidableEq, Repr, Inhabited

/-- UNKNOWN_OPCODE_POLICY (R10, R230; D1): open, chosen by the host, so it has no body here.
Log entry 3; safe. -/
opaque unknownOpcodePolicy : UnknownOpcodePolicy

/-- FONT (R10; D11): the 80 font bytes, whose values no source gives, so it has no body here.
Log entry 2; safe. -/
opaque font : Fin fontSize → Byte

/-- Which seed the random source was given (R36, R42): the host's, or the default one. -/
inductive Seed where
  /-- The host supplied no seed. -/
  | default
  /-- The host's seed. The spec gives seeds no type; a number is the model's (log entry 1). -/
  | given (n : Nat)
  deriving DecidableEq, Repr, Inhabited

/-- The FREE VALUE of Cxkk (R36, R38, R143; D14, I19): the byte that draw number `k` (counted from 0)
of the random source yields. The spec gives no algorithm, so it has no body. Log entry 1; safe. -/
opaque randomByte (seed : Seed) (k : Nat) : Byte

end Sys2Proof.Config
end

