-- ==== Sys2Proof/Syntax.lean ====
section
/-! DEFINITION. The instruction set (30_encoding.md R76): one constructor per row of spec/opcode_table.json.
The fields are those of R71: `x`, `y` register indexes, `kk` an 8-bit immediate, `nnn` a 12-bit address,
`n` a sprite height. Each field's type has exactly the values its bits have, and every one of them is
legal (R73, R74), so every term of `Instr` is an instruction. -/

namespace Sys2Proof

/-- The 34 instructions, in the order of R76. -/
inductive Instr where
  /-- 00E0, CLS (R180). -/
  | cls
  /-- 00EE, RET (R101). -/
  | ret
  /-- 1nnn, JP nnn (R102). -/
  | jp (nnn : Addr12)
  /-- 2nnn, CALL nnn (R103). -/
  | call (nnn : Addr12)
  /-- 3xkk, SE Vx, kk (R104). -/
  | seImm (x : RegIdx) (kk : Byte)
  /-- 4xkk, SNE Vx, kk (R105). -/
  | sneImm (x : RegIdx) (kk : Byte)
  /-- 5xy0, SE Vx, Vy (R106). -/
  | seReg (x y : RegIdx)
  /-- 9xy0, SNE Vx, Vy (R107). -/
  | sneReg (x y : RegIdx)
  /-- 6xkk, LD Vx, kk (R131). -/
  | ldImm (x : RegIdx) (kk : Byte)
  /-- 7xkk, ADD Vx, kk (R132). -/
  | addImm (x : RegIdx) (kk : Byte)
  /-- 8xy0, LD Vx, Vy (R133). -/
  | ldReg (x y : RegIdx)
  /-- 8xy1, OR Vx, Vy (R134). -/
  | orReg (x y : RegIdx)
  /-- 8xy2, AND Vx, Vy (R135). -/
  | andReg (x y : RegIdx)
  /-- 8xy3, XOR Vx, Vy (R136). -/
  | xorReg (x y : RegIdx)
  /-- 8xy4, ADD Vx, Vy (R138). -/
  | addReg (x y : RegIdx)
  /-- 8xy5, SUB Vx, Vy (R139). -/
  | sub (x y : RegIdx)
  /-- 8xy7, SUBN Vx, Vy (R140). -/
  | subn (x y : RegIdx)
  /-- 8xy6, SHR Vx (R141). `y` is in the word and is not read (R72). -/
  | shr (x y : RegIdx)
  /-- 8xyE, SHL Vx (R142). `y` is in the word and is not read (R72). -/
  | shl (x y : RegIdx)
  /-- Annn, LD I, nnn (R161). -/
  | ldI (nnn : Addr12)
  /-- Bnnn, JP V0, nnn (R108). -/
  | jpV0 (nnn : Addr12)
  /-- Cxkk, RND Vx, kk (R143). -/
  | rnd (x : RegIdx) (kk : Byte)
  /-- Dxyn, DRW Vx, Vy, n (R181). -/
  | drw (x y : RegIdx) (n : Fin 16)
  /-- Ex9E, SKP Vx (R201). -/
  | skp (x : RegIdx)
  /-- ExA1, SKNP Vx (R202). -/
  | sknp (x : RegIdx)
  /-- Fx07, LD Vx, DT (R204). -/
  | ldVxDT (x : RegIdx)
  /-- Fx0A, LD Vx, K (R203). -/
  | ldVxK (x : RegIdx)
  /-- Fx15, LD DT, Vx (R205). -/
  | ldDTVx (x : RegIdx)
  /-- Fx18, LD ST, Vx (R206). -/
  | ldSTVx (x : RegIdx)
  /-- Fx1E, ADD I, Vx (R162). -/
  | addI (x : RegIdx)
  /-- Fx29, LD F, Vx (R163). -/
  | ldF (x : RegIdx)
  /-- Fx33, LD B, Vx (R164). -/
  | ldB (x : RegIdx)
  /-- Fx55, LD [I], Vx (R165). -/
  | stRegs (x : RegIdx)
  /-- Fx65, LD Vx, [I] (R166). -/
  | ldRegs (x : RegIdx)
  deriving DecidableEq, Repr

end Sys2Proof
end

