-- ==== Sys2Proof/WellFormed.lean ====
section
/-! DEFINITION. What is well formed before it runs. A term of `Instr` always is (see Syntax.lean), so the two
checks are on raw data: a WORD is an instruction exactly when it matches a row of the opcode table
(30_encoding.md R76, R77), and a program IMAGE loads exactly when it fits (70_reset_and_hazards.md R263). -/

namespace Sys2Proof

/-- The `match` and `mask` columns of one row of the opcode table (R76). -/
structure OpcodeRow where
  bits : Word
  mask : Word
  deriving DecidableEq, Repr

/-- "A word w encodes the instruction of a row exactly when `(w & mask) = match`" (R76). -/
def OpcodeRow.accepts (r : OpcodeRow) (w : Word) : Bool := w &&& r.mask == r.bits

/-- The row of an instruction (R76). -/
def Instr.row : Instr → OpcodeRow
  | .cls        => ⟨0x00E0, 0xFFFF⟩
  | .ret        => ⟨0x00EE, 0xFFFF⟩
  | .jp _       => ⟨0x1000, 0xF000⟩
  | .call _     => ⟨0x2000, 0xF000⟩
  | .seImm _ _  => ⟨0x3000, 0xF000⟩
  | .sneImm _ _ => ⟨0x4000, 0xF000⟩
  | .seReg _ _  => ⟨0x5000, 0xF00F⟩
  | .sneReg _ _ => ⟨0x9000, 0xF00F⟩
  | .ldImm _ _  => ⟨0x6000, 0xF000⟩
  | .addImm _ _ => ⟨0x7000, 0xF000⟩
  | .ldReg _ _  => ⟨0x8000, 0xF00F⟩
  | .orReg _ _  => ⟨0x8001, 0xF00F⟩
  | .andReg _ _ => ⟨0x8002, 0xF00F⟩
  | .xorReg _ _ => ⟨0x8003, 0xF00F⟩
  | .addReg _ _ => ⟨0x8004, 0xF00F⟩
  | .sub _ _    => ⟨0x8005, 0xF00F⟩
  | .subn _ _   => ⟨0x8007, 0xF00F⟩
  | .shr _ _    => ⟨0x8006, 0xF00F⟩
  | .shl _ _    => ⟨0x800E, 0xF00F⟩
  | .ldI _      => ⟨0xA000, 0xF000⟩
  | .jpV0 _     => ⟨0xB000, 0xF000⟩
  | .rnd _ _    => ⟨0xC000, 0xF000⟩
  | .drw _ _ _  => ⟨0xD000, 0xF000⟩
  | .skp _      => ⟨0xE09E, 0xF0FF⟩
  | .sknp _     => ⟨0xE0A1, 0xF0FF⟩
  | .ldVxDT _   => ⟨0xF007, 0xF0FF⟩
  | .ldVxK _    => ⟨0xF00A, 0xF0FF⟩
  | .ldDTVx _   => ⟨0xF015, 0xF0FF⟩
  | .ldSTVx _   => ⟨0xF018, 0xF0FF⟩
  | .addI _     => ⟨0xF01E, 0xF0FF⟩
  | .ldF _      => ⟨0xF029, 0xF0FF⟩
  | .ldB _      => ⟨0xF033, 0xF0FF⟩
  | .stRegs _   => ⟨0xF055, 0xF0FF⟩
  | .ldRegs _   => ⟨0xF065, 0xF0FF⟩

/-- The opcode table (R76), its 34 rows in the spec's order. -/
def opcodeTable : List OpcodeRow :=
  [⟨0x00E0, 0xFFFF⟩, ⟨0x00EE, 0xFFFF⟩, ⟨0x1000, 0xF000⟩, ⟨0x2000, 0xF000⟩, ⟨0x3000, 0xF000⟩,
   ⟨0x4000, 0xF000⟩, ⟨0x5000, 0xF00F⟩, ⟨0x9000, 0xF00F⟩, ⟨0x6000, 0xF000⟩, ⟨0x7000, 0xF000⟩] ++
  [⟨0x8000, 0xF00F⟩, ⟨0x8001, 0xF00F⟩, ⟨0x8002, 0xF00F⟩, ⟨0x8003, 0xF00F⟩, ⟨0x8004, 0xF00F⟩,
   ⟨0x8005, 0xF00F⟩, ⟨0x8007, 0xF00F⟩, ⟨0x8006, 0xF00F⟩, ⟨0x800E, 0xF00F⟩] ++
  [⟨0xA000, 0xF000⟩, ⟨0xB000, 0xF000⟩, ⟨0xC000, 0xF000⟩, ⟨0xD000, 0xF000⟩] ++
  [⟨0xE09E, 0xF0FF⟩, ⟨0xE0A1, 0xF0FF⟩, ⟨0xF007, 0xF0FF⟩, ⟨0xF00A, 0xF0FF⟩, ⟨0xF015, 0xF0FF⟩,
   ⟨0xF018, 0xF0FF⟩, ⟨0xF01E, 0xF0FF⟩, ⟨0xF029, 0xF0FF⟩, ⟨0xF033, 0xF0FF⟩, ⟨0xF055, 0xF0FF⟩,
   ⟨0xF065, 0xF0FF⟩]

/-- A word that some row accepts; every other word is an unknown opcode (R77). -/
def wordWellFormed (w : Word) : Bool := opcodeTable.any (·.accepts w)

/-- An image the loader takes: at most 3584 bytes (R263; N = 0 and N = 3584 both load). -/
def imageWellFormed (image : List Byte) : Bool := image.length ≤ Config.maxImage

end Sys2Proof
end

