-- ==== Sys2Proof/Decode.lean ====
section
/-! DEFINITION. From words to instructions and back (30_encoding.md R70 to R78, R83): the fields of R71, the
two-level decoding of R75 with the selectors that R75, R77 and conflict C2 fix, and the encoder
written from the formats of R72. -/

namespace Sys2Proof

/-! ### The fields of a word (R71) -/

/-- `op`, w[15:12]. -/
def opField (w : Word) : BitVec 4 := w.extractLsb' 12 4
/-- `x`, w[11:8]. -/
def xField (w : Word) : RegIdx := (w.extractLsb' 8 4).toFin
/-- `y`, w[7:4]. -/
def yField (w : Word) : RegIdx := (w.extractLsb' 4 4).toFin
/-- `n`, w[3:0]: a count (R73), and the selector nibble of classes 5, 8 and 9 (R75). -/
def nField (w : Word) : BitVec 4 := w.extractLsb' 0 4
/-- `kk`, w[7:0]: masked extraction, as C8 requires; the selector byte of classes E and F (R75). -/
def kkField (w : Word) : Byte := w.extractLsb' 0 8
/-- `nnn`, w[11:0]. -/
def nnnField (w : Word) : Addr12 := w.extractLsb' 0 12

/-! ### Decoding -/

/-- Why bytes are no instruction. -/
inductive DecodeError where
  /-- The word matches no row of R76 (R77, R85). -/
  | unknownOpcode (w : Word)
  /-- Fewer than two bytes are left. The machine itself never meets this: its fetch always has two
  bytes (R57, R81). -/
  | truncated
  deriving DecidableEq, Repr

/-- Class 0: the whole word selects (R75, C2). -/
def decodeClass0 (w : Word) : Except DecodeError Instr :=
  if w = 0x00E0 then .ok .cls
  else if w = 0x00EE then .ok .ret
  else .error (.unknownOpcode w)

/-- Class 8: the low nibble selects (R75). -/
def decodeClass8 (w : Word) : Except DecodeError Instr :=
  match nField w with
  | 0x0#4 => .ok (.ldReg (xField w) (yField w))
  | 0x1#4 => .ok (.orReg (xField w) (yField w))
  | 0x2#4 => .ok (.andReg (xField w) (yField w))
  | 0x3#4 => .ok (.xorReg (xField w) (yField w))
  | 0x4#4 => .ok (.addReg (xField w) (yField w))
  | 0x5#4 => .ok (.sub (xField w) (yField w))
  | 0x6#4 => .ok (.shr (xField w) (yField w))
  | 0x7#4 => .ok (.subn (xField w) (yField w))
  | 0xE#4 => .ok (.shl (xField w) (yField w))
  | _ => .error (.unknownOpcode w)

/-- Class E: the low byte selects (R75). -/
def decodeClassE (w : Word) : Except DecodeError Instr :=
  match kkField w with
  | 0x9E#8 => .ok (.skp (xField w))
  | 0xA1#8 => .ok (.sknp (xField w))
  | _ => .error (.unknownOpcode w)

/-- Class F: the low byte selects (R75). -/
def decodeClassF (w : Word) : Except DecodeError Instr :=
  match kkField w with
  | 0x07#8 => .ok (.ldVxDT (xField w))
  | 0x0A#8 => .ok (.ldVxK (xField w))
  | 0x15#8 => .ok (.ldDTVx (xField w))
  | 0x18#8 => .ok (.ldSTVx (xField w))
  | 0x1E#8 => .ok (.addI (xField w))
  | 0x29#8 => .ok (.ldF (xField w))
  | 0x33#8 => .ok (.ldB (xField w))
  | 0x55#8 => .ok (.stRegs (xField w))
  | 0x65#8 => .ok (.ldRegs (xField w))
  | _ => .error (.unknownOpcode w)

/-- Decoding of one word (R75, R83, R86): one of the 34 instructions, or unknown. -/
def decode (w : Word) : Except DecodeError Instr :=
  match opField w with
  | 0x0#4 => decodeClass0 w
  | 0x1#4 => .ok (.jp (nnnField w))
  | 0x2#4 => .ok (.call (nnnField w))
  | 0x3#4 => .ok (.seImm (xField w) (kkField w))
  | 0x4#4 => .ok (.sneImm (xField w) (kkField w))
  | 0x5#4 => if nField w = 0 then .ok (.seReg (xField w) (yField w)) else .error (.unknownOpcode w)
  | 0x6#4 => .ok (.ldImm (xField w) (kkField w))
  | 0x7#4 => .ok (.addImm (xField w) (kkField w))
  | 0x8#4 => decodeClass8 w
  | 0x9#4 => if nField w = 0 then .ok (.sneReg (xField w) (yField w)) else .error (.unknownOpcode w)
  | 0xA#4 => .ok (.ldI (nnnField w))
  | 0xB#4 => .ok (.jpV0 (nnnField w))
  | 0xC#4 => .ok (.rnd (xField w) (kkField w))
  | 0xD#4 => .ok (.drw (xField w) (yField w) (nField w).toFin)
  | 0xE#4 => decodeClassE w
  | 0xF#4 => decodeClassF w
  | _ => .error (.unknownOpcode w) -- no value is left: `op` has four bits

/-- Decoding of bytes: the first two, high byte first (R56, R70), and the rest of the list. -/
def decodeBytes : List Byte → Except DecodeError (Instr × List Byte)
  | hi :: lo :: rest =>
    match decode (wordOfBytes hi lo) with
    | .ok i => .ok (i, rest)
    | .error e => .error e
  | _ => .error .truncated

/-! ### Encoding, by format (R72) -/

/-- Format NNN: `o nnn`. -/
def encodeNNN (op : BitVec 4) (nnn : Addr12) : Word := op ++ nnn
/-- Format XKK: `o x kk`. Format X is this one with its selector byte as `kk`. -/
def encodeXKK (op : BitVec 4) (x : RegIdx) (kk : Byte) : Word := op ++ (BitVec.ofFin x : BitVec 4) ++ kk
/-- Formats XY and XYN: `o x y s`, the last nibble a selector or a height. -/
def encodeXYN (op : BitVec 4) (x y : RegIdx) (n : BitVec 4) : Word :=
  op ++ (BitVec.ofFin x : BitVec 4) ++ (BitVec.ofFin y : BitVec 4) ++ n

/-- The word of an instruction (R72, R76). -/
def encode : Instr → Word
  | .cls         => 0x00E0
  | .ret         => 0x00EE
  | .jp nnn      => encodeNNN 0x1 nnn
  | .call nnn    => encodeNNN 0x2 nnn
  | .seImm x kk  => encodeXKK 0x3 x kk
  | .sneImm x kk => encodeXKK 0x4 x kk
  | .seReg x y   => encodeXYN 0x5 x y 0x0
  | .sneReg x y  => encodeXYN 0x9 x y 0x0
  | .ldImm x kk  => encodeXKK 0x6 x kk
  | .addImm x kk => encodeXKK 0x7 x kk
  | .ldReg x y   => encodeXYN 0x8 x y 0x0
  | .orReg x y   => encodeXYN 0x8 x y 0x1
  | .andReg x y  => encodeXYN 0x8 x y 0x2
  | .xorReg x y  => encodeXYN 0x8 x y 0x3
  | .addReg x y  => encodeXYN 0x8 x y 0x4
  | .sub x y     => encodeXYN 0x8 x y 0x5
  | .subn x y    => encodeXYN 0x8 x y 0x7
  | .shr x y     => encodeXYN 0x8 x y 0x6
  | .shl x y     => encodeXYN 0x8 x y 0xE
  | .ldI nnn     => encodeNNN 0xA nnn
  | .jpV0 nnn    => encodeNNN 0xB nnn
  | .rnd x kk    => encodeXKK 0xC x kk
  | .drw x y n   => encodeXYN 0xD x y (BitVec.ofFin n)
  | .skp x       => encodeXKK 0xE x 0x9E
  | .sknp x      => encodeXKK 0xE x 0xA1
  | .ldVxDT x    => encodeXKK 0xF x 0x07
  | .ldVxK x     => encodeXKK 0xF x 0x0A
  | .ldDTVx x    => encodeXKK 0xF x 0x15
  | .ldSTVx x    => encodeXKK 0xF x 0x18
  | .addI x      => encodeXKK 0xF x 0x1E
  | .ldF x       => encodeXKK 0xF x 0x29
  | .ldB x       => encodeXKK 0xF x 0x33
  | .stRegs x    => encodeXKK 0xF x 0x55
  | .ldRegs x    => encodeXKK 0xF x 0x65

/-- The high byte of a word: the first in memory (R56). -/
def hiByte (w : Word) : Byte := w.extractLsb' 8 8
/-- The low byte of a word: the second in memory (R56). -/
def loByte (w : Word) : Byte := w.extractLsb' 0 8

/-- The bytes of an instruction as memory holds them, high byte first (R56). -/
def encodeBytes (i : Instr) : List Byte := [hiByte (encode i), loByte (encode i)]

/-! ### The opcode table's numbering of bits -/

/-- The word whose bits the opcode table numbers: one 16-bit word with bit 0 its least significant
bit; any bit at or above `nbits` is 0. -/
def tableWord (nbits w : Nat) : Word := BitVec.ofNat 16 (w % 2 ^ nbits)

/-- What the decoder reads from the instruction whose bits are `w`: the word is laid out high byte
first and given to `decodeBytes`. -/
def decodeTableWord (nbits w : Nat) : Option Instr :=
  match decodeBytes [hiByte (tableWord nbits w), loByte (tableWord nbits w)] with
  | .ok (i, _) => some i
  | .error _ => none

end Sys2Proof
end

