-- ==== Sys2Proof/Machine/State.lean ====
section
/-! DEFINITION. The machine's state (10_state.md R20), the conditions and outcomes of a step (60_exceptions.md
R220, R227), and the state right after construction (R42, R260). -/

namespace Sys2Proof.Machine

/-- Memory `M` (R21): the cells that differ from the construction contents, as (address, byte) pairs in
the canonical form of `Memory.wf` (Machine/Ops.lean). -/
abbrev Memory := List Host.Cell

/-- The conditions a step raises (R223 to R225). -/
inductive StepCondition where
  /-- The fetched word `w` matches no row of the opcode table. -/
  | unknownOpcode (w : Word)
  /-- 2nnn at depth 16. -/
  | stackOverflow
  /-- 00EE at depth 0. -/
  | stackUnderflow
  deriving DecidableEq, Repr

/-- Every condition the spec names, with load's and the one that is never raised (R227). -/
inductive Condition where
  /-- Load: the image has `n` > 3584 bytes (R222). -/
  | imageTooLarge (n : Nat)
  /-- Step's conditions. -/
  | step (c : StepCondition)
  /-- Named by the taxonomy and never raised (R226). -/
  | outOfRange
  deriving DecidableEq, Repr

/-- The outcome a step reports to the host (R220). -/
inductive StepOutcome where
  /-- The instruction completed. -/
  | ok
  /-- Fx0A found no key pressed (R234). -/
  | keyWait
  /-- The step raised a condition (R221). -/
  | raised (c : StepCondition)
  /-- The machine had already halted (R80). -/
  | halted
  deriving DecidableEq, Repr

/-- Reasons for a step to stop without a next state. The spec gives every step a next state (R88), and
the one condition that would have none to give is never raised. -/
inductive Fault where
  /-- OutOfRange: nobody raises it, since every address wraps (R55, R226; C5). Safe: a name the spec
  allows a model to keep, which no step answers. -/
  | outOfRange
  deriving DecidableEq, Repr

/-- Reasons for a step to be refused. -/
inductive Refusal where
  /-- Raised only by an arm of `exec` whose instruction has no meaning yet; no arm is left in that
  state. Safe: it would stop where the hardware goes on. -/
  | notModelled (mnemonic : String)
  deriving DecidableEq, Repr

/-- The state of the core (R20). All fields but `draws` and `outcome` are the spec's own. -/
structure State where
  /-- `M` (R21, R50). -/
  mem : Memory
  /-- `V[0..15]` (R22); V[15] is VF (R23). -/
  v : Vector Byte 16
  /-- The index register (R26). -/
  I : Word
  /-- The program counter (R27). -/
  pc : Word
  /-- `stack[0..SP-1]`, oldest first, so `stack[SP-1]`, the top, is last (R30). `SP` is its length. -/
  stack : List Word
  /-- The delay timer (R32). -/
  dt : Byte
  /-- The sound timer (R32). -/
  st : Byte
  /-- `FB[c][r]`, column then row (R34); true is on. -/
  fb : Vector (Vector Bool 32) 64
  /-- `Key[0..15]` (R35); true is pressed. -/
  keys : Vector Bool 16
  /-- The random source (R36): its seed. -/
  seed : Config.Seed
  /-- The random source: how many bytes it has yielded. The model's own counter for the free value of
  Cxkk (log entry 1). -/
  draws : Nat
  /-- `fault` (R37): none, or the condition that halted the machine. -/
  fault : Option StepCondition
  /-- The outcome last reported to the host (R220, R245). The model's own field: no instruction reads it
  (log entry 4). -/
  outcome : StepOutcome
  deriving DecidableEq, Repr

/-- The machine after construction with an empty image and no seed supplied (R42, R260). Memory lists
nothing: an unlisted address reads as its construction contents. -/
def State.reset : State where
  mem := []
  v := Vector.replicate 16 0
  I := 0
  pc := Config.pcReset
  stack := []
  dt := 0
  st := 0
  fb := Vector.replicate 64 (Vector.replicate 32 false)
  keys := Vector.replicate 16 false
  seed := .default
  draws := 0
  fault := none
  outcome := .ok

end Sys2Proof.Machine
end

