-- ==== Sys2Proof/Machine/Ops.lean ====
section
/-! DEFINITION. The named operations every meaning is written with: memory (20_memory.md), registers,
program counter and call stack (10_state.md), the random source, the keypad and the framebuffer, the
fetch (30_encoding.md R81, R82), the ends of a step (R84, R220), and raising a condition
(60_exceptions.md R221), which is this hardware's whole exception mechanism. There is no return
from an exception (R232). -/

namespace Sys2Proof.Machine

/-! ### Memory -/

/-- What the cell at `a` holds after construction, before the load: FONT in [80, 160), else 0
(R51, R260). It is what an unlisted address reads as. -/
def constructionByte (a : Nat) : Byte :=
  if h : Config.fontBase ≤ a ∧ a < Config.fontBase + Config.fontSize then
    Config.font ⟨a - Config.fontBase, by have := h.2; omega⟩
  else 0

/-- The canonical form: addresses strictly rising and inside the address space, and no entry equal to
what its address reads as unlisted. -/
abbrev Memory.wf (m : Memory) : Prop :=
  m.Pairwise (fun p q => p.1 < q.1) ∧ ∀ p ∈ m, p.1 < Config.memSize ∧ p.2 ≠ constructionByte p.1

/-- The byte of the cell at `a`. -/
def Memory.byteAt (m : Memory) (a : Nat) : Byte :=
  match m with
  | [] => constructionByte a
  | (k, b) :: rest => if k = a then b else Memory.byteAt rest a

/-- The memory without an entry for `a`. -/
def Memory.unlist (m : Memory) (a : Nat) : Memory := m.filter (fun p => p.1 != a)

/-- The memory with an entry put in at its place in the order. -/
def Memory.enlist (m : Memory) (p : Host.Cell) : Memory :=
  match m with
  | [] => [p]
  | q :: rest => if p.1 < q.1 then p :: q :: rest else q :: Memory.enlist rest p

/-- The memory with the cell at `a` holding `b`; a cell back at its construction contents is not listed. -/
def Memory.store (m : Memory) (a : Nat) (b : Byte) : Memory :=
  if b = constructionByte a then m.unlist a else (m.unlist a).enlist (a, b)

/-- `a mod 4096`: the address that reaches `M` (R54). -/
def memAddr (a : Nat) : Nat := a % Config.memSize

/-- `MemRead(a, 1)` (R14, R54). -/
def memRead (s : State) (a : Nat) : Byte := s.mem.byteAt (memAddr a)

/-- `MemWrite(a, 1, b)` (R14, R54). -/
def memWrite (s : State) (a : Nat) (b : Byte) : State := { s with mem := s.mem.store (memAddr a) b }

/-! ### Registers -/

/-- `V[i]` (R14, R22). -/
def readReg (s : State) (i : RegIdx) : Byte := s.v.get i

/-- `V[i] <- b` (R14, R22). No register is hard-wired. -/
def writeReg (s : State) (i : RegIdx) (b : Byte) : State := { s with v := s.v.set i b }

/-- `I <- w` (R14, R26). -/
def setI (s : State) (w : Word) : State := { s with I := w }

/-- `pc <- target` (R14). -/
def setPc (s : State) (target : Word) : State := { s with pc := target }

/-- `pc <- (pc + 2) mod 2^16` (R29). -/
def forward (s : State) : State := { s with pc := s.pc + 2 }

/-- `pc <- (pc - 2) mod 2^16`: the rewind of Fx0A (R29, R203). -/
def rewind (s : State) : State := { s with pc := s.pc - 2 }

/-! ### Call stack -/

/-- `SP`, the depth of the call stack (R30). -/
def State.sp (s : State) : Nat := s.stack.length

/-- `stack[SP] <- w; SP <- SP + 1` (R103). -/
def push (s : State) (w : Word) : State := { s with stack := s.stack ++ [w] }

/-- `SP <- SP - 1` and the entry that was on top, or none at depth 0 (R101). -/
def pop (s : State) : Option (Word × State) :=
  match s.stack.getLast? with
  | none => none
  | some w => some (w, { s with stack := s.stack.dropLast })

/-! ### Random source, keypad, timers, framebuffer -/

/-- `RandomByte()`: one fresh draw (R14, R36, R38). -/
def randomByte (s : State) : Byte × State :=
  (Config.randomByte s.seed s.draws, { s with draws := s.draws + 1 })

/-- `Key[k]`: whether it is pressed (R35). -/
def keyPressed (s : State) (k : Fin 16) : Bool := s.keys.get k

/-- `min { k | Key[k] = pressed }`, if some key is pressed (R203). -/
def lowestPressed (s : State) : Option (Fin 16) := (List.finRange 16).find? (keyPressed s)

/-- `DT <- b` (R205). -/
def setDT (s : State) (b : Byte) : State := { s with dt := b }

/-- `ST <- b` (R206). -/
def setST (s : State) (b : Byte) : State := { s with st := b }

/-- `FB[c][r]` of a framebuffer: whether the cell is on (R34). -/
def fbCell (fb : Vector (Vector Bool 32) 64) (c : Fin 64) (r : Fin 32) : Bool := (fb.get c).get r

/-- A framebuffer with the cell at column `c`, row `r` toggled (R181). -/
def fbToggle (fb : Vector (Vector Bool 32) 64) (c : Fin 64) (r : Fin 32) :
    Vector (Vector Bool 32) 64 :=
  fb.set c ((fb.get c).set r (!fbCell fb c r))

/-- `FB[c][r]` of the machine. -/
def pixel (s : State) (c : Fin 64) (r : Fin 32) : Bool := fbCell s.fb c r

/-- Every cell off (R180). -/
def clearFb (s : State) : State := { s with fb := Vector.replicate 64 (Vector.replicate 32 false) }

/-! ### Fetch -/

/-- The word at `pc`, high byte first (R56, R57, R81). -/
def fetch (s : State) : Word :=
  wordOfBytes (memRead s s.pc.toNat) (memRead s (s.pc.toNat + 1))

/-- The advance before execution (R82). -/
def advance (s : State) : State := forward s

/-- A skip: past one more word, from the already advanced `pc` (R100). -/
def skip (s : State) : State := forward s

/-- Skip when `b` holds (R100). -/
def skipIf (b : Bool) (s : State) : State := if b then skip s else s

/-! ### The ends of a step -/

/-- What every meaning answers. -/
abbrev Result := Host.Outcome State Fault Refusal

/-- The machine with an outcome reported to the host (R220). -/
def report (o : StepOutcome) (s : State) : State := { s with outcome := o }

/-- The step ends with outcome Ok (R84). -/
def complete (s : State) : Result := .next (report .ok s)

/-- The step ends with outcome KeyWait (R234). -/
def waitForKey (s : State) : Result := .next (report .keyWait s)

/-- A step on a faulted machine: no state changes, outcome Halted (R80). -/
def stayHalted (s : State) : Result := .next (report .halted s)

/-- UNKNOWN_OPCODE_POLICY of this machine (R230). -/
def unknownOpcodePolicy : Config.UnknownOpcodePolicy := Config.unknownOpcodePolicy

/-- Whether a condition halts the machine, the column "halts" of R227, given the host's policy. -/
def haltsUnder (policy : Config.UnknownOpcodePolicy) : StepCondition → Bool
  | .unknownOpcode _ => policy == .halt
  | .stackOverflow => true
  | .stackUnderflow => true

/-- `raise c` under a policy: `fault` is set when the condition halts, and the outcome is `c`; nothing
else changes (R221, R229, R230). -/
def raiseUnder (policy : Config.UnknownOpcodePolicy) (c : StepCondition) (s : State) : State :=
  report (.raised c) { s with fault := if haltsUnder policy c then some c else s.fault }

/-- `raise c` (R14, R221): the step ends with `c` as its outcome. -/
def raise (c : StepCondition) (s : State) : Result := .next (raiseUnder unknownOpcodePolicy c s)

/-- The code of a condition (R227). -/
def Condition.code : Condition → Nat
  | .imageTooLarge _ => 1
  | .step (.unknownOpcode _) => 2
  | .step .stackOverflow => 3
  | .step .stackUnderflow => 4
  | .outOfRange => 5

end Sys2Proof.Machine
end

