-- ==== Sys2Proof/Machine/Operands.lean ====
section
/-! DEFINITION. The operand forms: what an instruction's fields stand for (30_encoding.md R73, R74;
42_index_memory.md R160, R163; 44_input_timers.md R200; 43_graphics.md R181, R182). -/

namespace Sys2Proof.Machine

/-- `I + i`, before the reduction modulo 4096 that `MemRead` and `MemWrite` make (R160). -/
def indexedAddr (s : State) (i : Nat) : Nat := s.I.toNat + i

/-- The registers V0 to Vx, in order (R74, R165, R166). -/
def regsUpTo (x : RegIdx) : List RegIdx := (List.finRange 16).filter (· ≤ x)

/-- The key a register's value names: `v mod 16` (R200; D6). -/
def keyIndex (v : Byte) : Fin 16 := Fin.ofNat 16 v.toNat

/-- The address of the glyph of a register's value, `80 + 5 * v`, not masked (R163; D23). -/
def glyphAddr (v : Byte) : Word := BitVec.ofNat 16 (Config.fontBase + Config.fontGlyphBytes * v.toNat)

/-- The decimal digits of a value: hundreds, tens, ones (R164). -/
def hundreds (v : Byte) : Byte := BitVec.ofNat 8 (v.toNat / 100)
/-- The tens digit (R164). -/
def tens (v : Byte) : Byte := BitVec.ofNat 8 (v.toNat / 10 % 10)
/-- The ones digit (R164). -/
def ones (v : Byte) : Byte := BitVec.ofNat 8 (v.toNat % 10)

/-- `(cx + col) mod 64` (R181, R183). -/
def wrapCol (cx : Byte) (col : Nat) : Fin 64 := Fin.ofNat 64 (cx.toNat + col)

/-- `(cy + row) mod 32` (R181, R183). -/
def wrapRow (cy : Byte) (row : Nat) : Fin 32 := Fin.ofNat 32 (cy.toNat + row)

/-- Whether the sprite at `I` has its bit of row `row`, column `col` set; bit 7 is column 0 (R181, R182;
D9). -/
def spriteBit (s : State) (row col : Nat) : Bool := (memRead s (indexedAddr s row)).getLsbD (7 - col)

/-- The cells under one row of the sprite's set bits. -/
def spriteRow (s : State) (cx cy : Byte) (row : Nat) : List (Fin 64 × Fin 32) :=
  ((List.range 8).filter (spriteBit s row)).map (fun col => (wrapCol cx col, wrapRow cy row))

/-- The cells under the set bits of an `n`-row sprite drawn at `(cx, cy)`, in the order of R181's loops. -/
def spriteCells (s : State) (cx cy : Byte) (n : Nat) : List (Fin 64 × Fin 32) :=
  (List.range n).flatMap (spriteRow s cx cy)

end Sys2Proof.Machine
end

