-- ==== Sys2Proof/Machine/Flags.lean ====
section
/-! DEFINITION. The flag computations (10_state.md R39): the bit each instruction leaves in VF, and the one
order in which result and flag are written (41_alu.md R137; C6, D7). -/

namespace Sys2Proof.Machine

/-- A bit as VF holds it: 1 or 0 (R39). -/
def flagByte (b : Bool) : Byte := if b then 1 else 0

/-- Carry out of bit 7: the exact sum exceeds 255 (R138). -/
def carryOut (a b : Byte) : Bool := 255 < a.toNat + b.toNat

/-- No borrow in `a - b`: `a >= b`, so equal operands give 1 (R139, R140; C9). -/
def noBorrow (a b : Byte) : Bool := b.toNat ≤ a.toNat

/-- Bit 0, which a right shift drops (R141). -/
def lowBit (a : Byte) : Bool := a.getLsbD 0

/-- Bit 7, which a left shift drops (R142). -/
def highBit (a : Byte) : Bool := a.getLsbD 7

/-- Write VF (R23, R39). -/
def setFlag (s : State) (b : Bool) : State := writeReg s Config.flagReg (flagByte b)

/-- The result first, the flag second: with x = 15 VF ends as the flag (R137). -/
def writeResultAndFlag (s : State) (x : RegIdx) (result : Byte) (flag : Bool) : State :=
  setFlag (writeReg s x result) flag

end Sys2Proof.Machine
end

