-- ==== Sys2Proof/Machine/Alu.lean ====
section
/-! DEFINITION. The register and arithmetic instructions (41_alu.md). Operands are read before any register is
written (R130); bytes add and subtract modulo 256 (R144). -/

namespace Sys2Proof.Machine

/-- 6xkk, LD Vx, kk (R131). -/
def execLdImm (x : RegIdx) (kk : Byte) (s : State) : Result := complete (writeReg s x kk)

/-- 7xkk, ADD Vx, kk: modulo 256, VF untouched (R132). -/
def execAddImm (x : RegIdx) (kk : Byte) (s : State) : Result :=
  complete (writeReg s x (readReg s x + kk))

/-- 8xy0, LD Vx, Vy (R133). -/
def execLdReg (x y : RegIdx) (s : State) : Result := complete (writeReg s x (readReg s y))

/-- 8xy1, OR Vx, Vy: VF is not reset (R134). -/
def execOrReg (x y : RegIdx) (s : State) : Result :=
  complete (writeReg s x (readReg s x ||| readReg s y))

/-- 8xy2, AND Vx, Vy: VF is not reset (R135). -/
def execAndReg (x y : RegIdx) (s : State) : Result :=
  complete (writeReg s x (readReg s x &&& readReg s y))

/-- 8xy3, XOR Vx, Vy: VF is not reset (R136). -/
def execXorReg (x y : RegIdx) (s : State) : Result :=
  complete (writeReg s x (readReg s x ^^^ readReg s y))

/-- 8xy4, ADD Vx, Vy: VF is the carry (R137, R138). -/
def execAddReg (x y : RegIdx) (s : State) : Result :=
  let a := readReg s x
  let b := readReg s y
  complete (writeResultAndFlag s x (a + b) (carryOut a b))

/-- 8xy5, SUB Vx, Vy: VF is the no-borrow bit (R137, R139). -/
def execSub (x y : RegIdx) (s : State) : Result :=
  let a := readReg s x
  let b := readReg s y
  complete (writeResultAndFlag s x (a - b) (noBorrow a b))

/-- 8xy7, SUBN Vx, Vy: the operands change places (R137, R140). -/
def execSubn (x y : RegIdx) (s : State) : Result :=
  let a := readReg s x
  let b := readReg s y
  complete (writeResultAndFlag s x (b - a) (noBorrow b a))

/-- 8xy6, SHR Vx: V[y] is not read (R137, R141). -/
def execShr (x _y : RegIdx) (s : State) : Result :=
  let a := readReg s x
  complete (writeResultAndFlag s x (a >>> 1) (lowBit a))

/-- 8xyE, SHL Vx: V[y] is not read (R137, R142). -/
def execShl (x _y : RegIdx) (s : State) : Result :=
  let a := readReg s x
  complete (writeResultAndFlag s x (a <<< 1) (highBit a))

/-- Cxkk, RND Vx, kk: one draw, whatever kk is (R143). -/
def execRnd (x : RegIdx) (kk : Byte) (s : State) : Result :=
  let (r, s') := randomByte s
  complete (writeReg s' x (r &&& kk))

end Sys2Proof.Machine
end

