-- ==== Sys2Proof/Machine/ControlFlow.lean ====
section
/-! DEFINITION. The control flow instructions (40_control_flow.md). Each meaning starts from the state after the
advance, so `s.pc` is the instruction's address plus 2 (00_scope.md R19). -/

namespace Sys2Proof.Machine

/-- 00EE, RET: pop the return address, or StackUnderflow with no further change (R101, R109). -/
def execRet (s : State) : Result :=
  match pop s with
  | none => raise .stackUnderflow s
  | some (w, s') => complete (setPc s' w)

/-- 1nnn, JP nnn (R102). -/
def execJp (nnn : Addr12) (s : State) : Result := complete (setPc s (zext16 nnn))

/-- 2nnn, CALL nnn: push the advanced pc and jump, or StackOverflow with no further change (R103, R109). -/
def execCall (nnn : Addr12) (s : State) : Result :=
  if Config.stackDepth ≤ s.sp then raise .stackOverflow s
  else complete (setPc (push s s.pc) (zext16 nnn))

/-- 3xkk, SE Vx, kk (R104). -/
def execSeImm (x : RegIdx) (kk : Byte) (s : State) : Result :=
  complete (skipIf (readReg s x == kk) s)

/-- 4xkk, SNE Vx, kk (R105). -/
def execSneImm (x : RegIdx) (kk : Byte) (s : State) : Result :=
  complete (skipIf (readReg s x != kk) s)

/-- 5xy0, SE Vx, Vy (R106). -/
def execSeReg (x y : RegIdx) (s : State) : Result :=
  complete (skipIf (readReg s x == readReg s y) s)

/-- 9xy0, SNE Vx, Vy (R107). -/
def execSneReg (x y : RegIdx) (s : State) : Result :=
  complete (skipIf (readReg s x != readReg s y) s)

/-- Bnnn, JP V0, nnn: the register is always V0 (R108). -/
def execJpV0 (nnn : Addr12) (s : State) : Result :=
  complete (setPc s (zext16 (readReg s 0) + zext16 nnn))

end Sys2Proof.Machine
end

