-- ==== Sys2Proof/Machine/Graphics.lean ====
section
/-! DEFINITION. The graphics instructions (43_graphics.md). -/

namespace Sys2Proof.Machine

/-- One toggle of Dxyn, with the collision seen so far (R181). -/
def plot (acc : Vector (Vector Bool 32) 64 × Bool) (p : Fin 64 × Fin 32) :
    Vector (Vector Bool 32) 64 × Bool :=
  (fbToggle acc.1 p.1 p.2, acc.2 || fbCell acc.1 p.1 p.2)

/-- Toggle the cells one after another; the flag says whether one was on when its turn came (R181). -/
def plotAll (fb : Vector (Vector Bool 32) 64) (cells : List (Fin 64 × Fin 32)) :
    Vector (Vector Bool 32) 64 × Bool :=
  cells.foldl plot (fb, false)

/-- 00E0, CLS: every cell off; VF unchanged (R180). -/
def execCls (s : State) : Result := complete (clearFb s)

/-- Dxyn, DRW Vx, Vy, n (R181): the coordinates and `I` are read before VF is written (D8); the cells
under the sprite's set bits are toggled in the order of R181's loops; VF is the collision. -/
def execDrw (x y : RegIdx) (n : Fin 16) (s : State) : Result :=
  let drawn := plotAll s.fb (spriteCells s (readReg s x) (readReg s y) n.val)
  complete (setFlag { s with fb := drawn.1 } drawn.2)

end Sys2Proof.Machine
end

