-- ==== Sys2Proof/Machine/IndexMemory.lean ====
section
/-! DEFINITION. The index register and memory instructions (42_index_memory.md). None raises a condition, and the
stores and loads leave `I` as it is (R160). -/

namespace Sys2Proof.Machine

/-- Annn, LD I, nnn (R161). -/
def execLdI (nnn : Addr12) (s : State) : Result := complete (setI s (zext16 nnn))

/-- Fx1E, ADD I, Vx: modulo 2^16, no flag (R162). -/
def execAddI (x : RegIdx) (s : State) : Result :=
  complete (setI s (s.I + zext16 (readReg s x)))

/-- Fx29, LD F, Vx (R163). -/
def execLdF (x : RegIdx) (s : State) : Result := complete (setI s (glyphAddr (readReg s x)))

/-- Fx33, LD B, Vx: hundreds at I, tens at I + 1, ones at I + 2 (R164). -/
def execLdB (x : RegIdx) (s : State) : Result :=
  let v := readReg s x
  let s₁ := memWrite s (indexedAddr s 0) (hundreds v)
  let s₂ := memWrite s₁ (indexedAddr s 1) (tens v)
  complete (memWrite s₂ (indexedAddr s 2) (ones v))

/-- One store of Fx55's loop: V[i] to I + i (R165). -/
def storeReg (s : State) (i : RegIdx) : State := memWrite s (indexedAddr s i.val) (readReg s i)

/-- Fx55, LD [I], Vx: V0 to Vx, inclusive, to memory from I on (R165). -/
def execStRegs (x : RegIdx) (s : State) : Result := complete ((regsUpTo x).foldl storeReg s)

/-- One load of Fx65's loop: V[i] from I + i (R166). -/
def loadReg (s : State) (i : RegIdx) : State := writeReg s i (memRead s (indexedAddr s i.val))

/-- Fx65, LD Vx, [I]: V0 to Vx, inclusive, from memory from I on (R166). -/
def execLdRegs (x : RegIdx) (s : State) : Result := complete ((regsUpTo x).foldl loadReg s)

end Sys2Proof.Machine
end

