-- ==== Sys2Proof/Machine/InputTimers.lean ====
section
/-! DEFINITION. The keypad and timer instructions (44_input_timers.md). -/

namespace Sys2Proof.Machine

/-- Ex9E, SKP Vx (R200, R201). -/
def execSkp (x : RegIdx) (s : State) : Result :=
  complete (skipIf (keyPressed s (keyIndex (readReg s x))) s)

/-- ExA1, SKNP Vx (R200, R202). -/
def execSknp (x : RegIdx) (s : State) : Result :=
  complete (skipIf (!keyPressed s (keyIndex (readReg s x))) s)

/-- Fx0A, LD Vx, K: the lowest pressed key, or back to this instruction with outcome KeyWait (R203). -/
def execLdVxK (x : RegIdx) (s : State) : Result :=
  match lowestPressed s with
  | some k => complete (writeReg s x (BitVec.ofNat 8 k.val))
  | none => waitForKey (rewind s)

/-- Fx07, LD Vx, DT (R204). -/
def execLdVxDT (x : RegIdx) (s : State) : Result := complete (writeReg s x s.dt)

/-- Fx15, LD DT, Vx (R205). -/
def execLdDTVx (x : RegIdx) (s : State) : Result := complete (setDT s (readReg s x))

/-- Fx18, LD ST, Vx (R206). -/
def execLdSTVx (x : RegIdx) (s : State) : Result := complete (setST s (readReg s x))

end Sys2Proof.Machine
end

