-- ==== Sys2Proof/Machine/Step.lean ====
section
/-! DEFINITION. The step: one fetch-decode-execute cycle (30_encoding.md R80 to R89). -/

namespace Sys2Proof.Machine

/-- Decode and execute the fetched word on the advanced state (R83 to R85). -/
def executeWord (w : Word) (s : State) : Host.Outcome State Fault Refusal :=
  match decode w with
  | .ok i => exec i s
  | .error _ => raise (.unknownOpcode w) s

/-- The step, in full (R88). -/
def step (s : State) : Host.Outcome State Fault Refusal :=
  match s.fault with
  | some _ => stayHalted s
  | none => executeWord (fetch s) (advance s)

/-- `s` with the instruction whose bits are `w` (numbered as the opcode table numbers them) stored where
`step` fetches next. A halted machine fetches nothing (R80), so `fault` becomes none (log entry 6). -/
def State.withFetchWord (s : State) (nbits w : Nat) : State :=
  let s₁ := memWrite s s.pc.toNat (hiByte (tableWord nbits w))
  let s₂ := memWrite s₁ (s.pc.toNat + 1) (loByte (tableWord nbits w))
  { s₂ with fault := none }

end Sys2Proof.Machine
end

