-- ==== Sys2Proof/Machine/HostPorts.lean ====
section
/-! DEFINITION. What passes between the host and the core besides Step (60_exceptions.md R240 to R245;
70_reset_and_hazards.md R260 to R264). The host acts only between steps (R243). -/

namespace Sys2Proof.Machine

/-- `Key[k] <- b`: SetKey (R244). -/
def setKey (s : State) (k : Fin 16) (b : Bool) : State := { s with keys := s.keys.set k b }

/-- A timer one tick later: a timer at 0 stays at 0 (R240). -/
def tickTimer (t : Byte) : Byte := if t = 0 then 0 else t - 1

/-- TimerTick: both timers (R240). It acts on a halted machine too (R249). -/
def timerTick (s : State) : State := { s with dt := tickTimer s.dt, st := tickTimer s.st }

/-- ReadFramebuffer: the grid; no effect on the state (R245). -/
def readFramebuffer (s : State) : Vector (Vector Bool 32) 64 := s.fb

/-- ReadTimers: DT and ST; no effect on the state (R245). -/
def readTimers (s : State) : Byte × Byte := (s.dt, s.st)

/-- `M[a + j] <- b[j]` for the bytes of a list, in order (R262). -/
def storeBytes (s : State) (a : Nat) (bytes : List Byte) : State :=
  match bytes with
  | [] => s
  | b :: rest => storeBytes (memWrite s a b) (a + 1) rest

/-- Construct(image, seed) with its load (R245, R260 to R264): the fresh machine with the image from 512
on, or ImageTooLarge(N) and no machine when the image has N > 3584 bytes. -/
def construct (image : List Byte) (seed : Config.Seed) : Except Condition State :=
  if imageWellFormed image then
    .ok (storeBytes { State.reset with seed := seed } Config.loadBase image)
  else .error (.imageTooLarge image.length)

/-- What the host may do between two steps (R243), and the step itself. -/
inductive Event where
  /-- Step (R88). -/
  | step
  /-- SetKey(k, b) (R244). -/
  | setKey (k : Fin 16) (pressed : Bool)
  /-- TimerTick (R240). -/
  | timerTick
  deriving DecidableEq, Repr

/-- The state after one event. -/
def runEvent (s : State) : Event → Host.Outcome State Fault Refusal
  | .step => step s
  | .setKey k b => .next (setKey s k b)
  | .timerTick => .next (timerTick s)

/-- A run: steps and host actions in any order (R243, R265), to the first stop. -/
def runEvents (s : State) : List Event → Host.Outcome State Fault Refusal
  | [] => .next s
  | e :: rest =>
    match runEvent s e with
    | .next s' => runEvents s' rest
    | .fault r => .fault r
    | .refused r => .refused r

end Sys2Proof.Machine
end

