-- ==== Sys2Proof/Safety.lean ====
section
/-! DEFINITION. What claims are stated with: the invariant of the machine, the stop points of
60_exceptions.md R249, and the spec's tables of what each instruction writes (10_state.md R25, R26;
20_memory.md R58). The tables are written from the spec, not from the meanings. -/

namespace Sys2Proof.Machine

/-- What holds of every state a run reaches. -/
structure State.Inv (s : State) : Prop where
  /-- Memory keeps its canonical form, all of it inside [0, 4096) (R50). -/
  memory : s.mem.wf
  /-- The call stack holds at most 16 entries (R30). -/
  depth : s.sp ≤ Config.stackDepth
  /-- `fault` is UnknownOpcode(w) only under the policy Halt, and only for a word that is no
  instruction (R37). -/
  unknown : ∀ w, s.fault = some (.unknownOpcode w) →
    unknownOpcodePolicy = .halt ∧ wordWellFormed w = false
  /-- A halting condition that was reported stands in `fault` (R229, R230). -/
  raised : ∀ c, s.outcome = .raised c → haltsUnder unknownOpcodePolicy c = true → s.fault = some c
  /-- Halted is reported only by a faulted machine (R80). -/
  halted : s.outcome = .halted → s.fault ≠ none

/-- Stop point (a): faulted (R249). -/
def State.Faulted (s : State) : Prop := s.fault ≠ none

/-- Stop point (b), the idle loop: the word at pc is 1nnn with nnn = pc (R249). -/
def State.IdleLoop (s : State) : Prop :=
  s.fault = none ∧ ∃ nnn, decode (fetch s) = .ok (.jp nnn) ∧ zext16 nnn = s.pc

/-- Stop point (c), the key wait: the word at pc is Fx0A and no key is pressed (R249). -/
def State.KeyWait (s : State) : Prop :=
  s.fault = none ∧ ∃ x, decode (fetch s) = .ok (.ldVxK x) ∧ ∀ k, keyPressed s k = false

/-- The column "writes" of R25: whether an instruction executed in `s` writes V[j]. Only Fx0A depends on
the state: it writes Vx "only when a key is pressed". -/
def writesReg (s : State) : Instr → RegIdx → Bool
  | .ldImm x _, j | .addImm x _, j | .rnd x _, j => j == x
  | .ldReg x _, j | .orReg x _, j | .andReg x _, j | .xorReg x _, j => j == x
  | .addReg x _, j | .sub x _, j | .subn x _, j => j == x || j == Config.flagReg
  | .shr x _, j | .shl x _, j => j == x || j == Config.flagReg
  | .drw _ _ _, j => j == Config.flagReg
  | .ldVxDT x, j => j == x
  | .ldVxK x, j => (lowestPressed s).isSome && j == x
  | .ldRegs x, j => j ≤ x
  | .cls, _ | .ret, _ | .jp _, _ | .call _, _ | .jpV0 _, _ | .ldI _, _ => false
  | .seImm _ _, _ | .sneImm _ _, _ | .seReg _ _, _ | .sneReg _ _, _ => false
  | .skp _, _ | .sknp _, _ | .ldDTVx _, _ | .ldSTVx _, _ => false
  | .addI _, _ | .ldF _, _ | .ldB _, _ | .stRegs _, _ => false

/-- The column "reads" of R25: the registers whose values an instruction may use. -/
def readsReg : Instr → RegIdx → Bool
  | .seImm x _, j | .sneImm x _, j | .addImm x _, j => j == x
  | .seReg x y, j | .sneReg x y, j => j == x || j == y
  | .ldReg _ y, j => j == y
  | .orReg x y, j | .andReg x y, j | .xorReg x y, j => j == x || j == y
  | .addReg x y, j | .sub x y, j | .subn x y, j => j == x || j == y
  | .shr x _, j | .shl x _, j => j == x
  | .jpV0 _, j => j == 0
  | .drw x y _, j => j == x || j == y
  | .skp x, j | .sknp x, j | .ldDTVx x, j | .ldSTVx x, j => j == x
  | .addI x, j | .ldF x, j | .ldB x, j => j == x
  | .stRegs x, j => j ≤ x
  | .cls, _ | .ret, _ | .jp _, _ | .call _, _ | .ldI _, _ => false
  | .ldImm _ _, _ | .rnd _ _, _ | .ldVxDT _, _ | .ldVxK _, _ | .ldRegs _, _ => false

/-- The columns "writes" and "addresses" of R58: the addresses an instruction stores to, before the
reduction modulo 4096. -/
def storedAddrs (s : State) : Instr → List Nat
  | .ldB _ => [indexedAddr s 0, indexedAddr s 1, indexedAddr s 2]
  | .stRegs x => (regsUpTo x).map (fun i => indexedAddr s i.val)
  | .cls | .ret | .jp _ | .call _ | .seImm _ _ | .sneImm _ _ | .seReg _ _ | .sneReg _ _ => []
  | .ldImm _ _ | .addImm _ _ | .ldReg _ _ | .orReg _ _ | .andReg _ _ | .xorReg _ _ => []
  | .addReg _ _ | .sub _ _ | .subn _ _ | .shr _ _ | .shl _ _ | .ldI _ | .jpV0 _ | .rnd _ _ => []
  | .drw _ _ _ | .skp _ | .sknp _ | .ldVxDT _ | .ldVxK _ | .ldDTVx _ | .ldSTVx _ => []
  | .addI _ | .ldF _ | .ldRegs _ => []

/-- The instructions that write `I` (R26): Annn, Fx1E, Fx29. -/
def writesIndex (i : Instr) : Bool :=
  match i with
  | .ldI _ | .addI _ | .ldF _ => true
  | .cls | .ret | .jp _ | .call _ | .seImm _ _ | .sneImm _ _ | .seReg _ _ | .sneReg _ _ => false
  | .ldImm _ _ | .addImm _ _ | .ldReg _ _ | .orReg _ _ | .andReg _ _ | .xorReg _ _ => false
  | .addReg _ _ | .sub _ _ | .subn _ _ | .shr _ _ | .shl _ _ | .jpV0 _ | .rnd _ _ => false
  | .drw _ _ _ | .skp _ | .sknp _ | .ldVxDT _ | .ldVxK _ | .ldDTVx _ | .ldSTVx _ => false
  | .ldB _ | .stRegs _ | .ldRegs _ => false

/-! ### The shapes of result that statements name -/

/-- The instruction completes with V[x] = b, every other register and every other field as before, and
outcome Ok. -/
def SetsOnlyReg (i : Instr) (s : State) (x : RegIdx) (b : Byte) : Prop :=
  ∃ t, exec i s = .next t ∧ t = { s with v := t.v, outcome := .ok } ∧
    readReg t x = b ∧ ∀ j, j ≠ x → readReg t j = readReg s j

/-- The instruction completes with V[x] = r and VF = 1 if `flag` holds and 0 if not, the flag written
last (so that it stands when x = 15), every other register and every other field as before, and
outcome Ok (R137). -/
def SetsRegAndFlag (i : Instr) (s : State) (x : RegIdx) (r : Byte) (flag : Prop) : Prop :=
  ∃ t, exec i s = .next t ∧ t = { s with v := t.v, outcome := .ok } ∧
    (flag → readReg t 15 = 1) ∧ (¬ flag → readReg t 15 = 0) ∧
    (x ≠ 15 → readReg t x = r) ∧ ∀ j, j ≠ x → j ≠ 15 → readReg t j = readReg s j

/-- A set bit of the n-row sprite at `I` lands on the cell (c, r) when drawn at (V[x], V[y]): the
condition inside the loops of R181, with bit 7 as column 0 (R182). -/
def SpriteCovers (s : State) (x y : RegIdx) (n : Nat) (c : Fin 64) (r : Fin 32) : Prop :=
  ∃ row, row < n ∧ ∃ col, col < 8 ∧ (memRead s (s.I.toNat + row)).getLsbD (7 - col) = true ∧
    c.val = ((readReg s x).toNat + col) % 64 ∧ r.val = ((readReg s y).toNat + row) % 32

/-- The outcome a step from `s` reports: the checks in the order of R228. -/
def expectedOutcome (s : State) : StepOutcome :=
  match s.fault with
  | some _ => .halted
  | none =>
    match decode (fetch s) with
    | .error _ => .raised (.unknownOpcode (fetch s))
    | .ok .ret => if s.sp = 0 then .raised .stackUnderflow else .ok
    | .ok (.call _) => if 16 ≤ s.sp then .raised .stackOverflow else .ok
    | .ok (.ldVxK _) => if ∀ k, keyPressed s k = false then .keyWait else .ok
    | .ok _ => .ok

end Sys2Proof.Machine
end

