-- ==== Sys2Proof/Certificates/Slice0/Obligations.lean ====
section
/-! DEFINITION. The statements for the provers. Each docstring names the rule of spec/ it formalises; where a
clause rests on a point the spec marks as its own decision or derivation, the docstring says so. `exec i s`
runs from the state after the advance, so `s.pc` is the instruction's address plus 2 (00_scope.md R19). -/

open Sys2Proof Sys2Proof.Machine

/-! ### Encoding (30_encoding.md) -/

/-- Decoding an encoded instruction gives it back, for every instruction and every operand. The spec has no
encoder: this rests on the formats of 30_encoding.md sections 1 to 3. -/
def Obligations.DecodeOfEncodeIsTheInstruction : Prop :=
  ∀ i : Instr, decode (encode i) = .ok i

/-- Encoding a decoded word gives it back: no bit of a word is dropped, each instruction has one word. -/
def Obligations.EncodeOfDecodeIsTheWord : Prop :=
  ∀ (w : Word) (i : Instr), decode w = .ok i → encode i = w

/-- R76: a word decodes to an instruction of a row exactly when that row accepts it, no two rows accept
the same word, and the table has 34 rows. -/
def Obligations.WordDecodesExactlyWhenItsRowAccepts : Prop :=
  opcodeTable.length = 34 ∧
  (∀ r ∈ opcodeTable, ∀ w : Word, r.accepts w = true ↔ ∃ i, decode w = .ok i ∧ i.row = r) ∧
  (∀ r ∈ opcodeTable, ∀ q ∈ opcodeTable, ∀ w : Word,
    r.accepts w = true → q.accepts w = true → r = q)

/-- The table of unknown words in section 4 of 30_encoding.md, class by class, in plain arithmetic on the
word (the spec marks that table as derived from its opcode map; its counts are not stated here). -/
def Obligations.UnknownWordsAreThoseListedByClass : Prop :=
  ∀ w : Word, decode w = .error (.unknownOpcode w) ↔
    (w.toNat / 4096 = 0 ∧ w.toNat ≠ 0x00E0 ∧ w.toNat ≠ 0x00EE) ∨
    (w.toNat / 4096 = 5 ∧ w.toNat % 16 ≠ 0) ∨
    (w.toNat / 4096 = 8 ∧ w.toNat % 16 ∈ [8, 9, 10, 11, 12, 13, 15]) ∨
    (w.toNat / 4096 = 9 ∧ w.toNat % 16 ≠ 0) ∨
    (w.toNat / 4096 = 14 ∧ w.toNat % 256 ∉ [0x9E, 0xA1]) ∨
    (w.toNat / 4096 = 15 ∧
      w.toNat % 256 ∉ [0x07, 0x0A, 0x15, 0x18, 0x1E, 0x29, 0x33, 0x55, 0x65])

/-- Words of the spec's own examples, one or more of every family, decode to what they stand for. -/
def Obligations.SpecExampleWordsDecode : Prop :=
  decode 0x00EE = .ok .ret ∧ decode 0x1ABC = .ok (.jp 0xABC) ∧
  decode 0x3342 = .ok (.seImm 3 0x42) ∧ decode 0x5120 = .ok (.seReg 1 2) ∧
  decode 0xBFFF = .ok (.jpV0 0xFFF) ∧ decode 0x6A05 = .ok (.ldImm 10 0x05) ∧
  decode 0x8124 = .ok (.addReg 1 2) ∧ decode 0x810E = .ok (.shl 1 0) ∧
  decode 0xC30F = .ok (.rnd 3 0x0F) ∧ decode 0xA300 = .ok (.ldI 0x300) ∧
  decode 0xF533 = .ok (.ldB 5) ∧ decode 0xF265 = .ok (.ldRegs 2) ∧
  decode 0x00E0 = .ok .cls ∧ decode 0xD011 = .ok (.drw 0 1 1) ∧
  decode 0xE29E = .ok (.skp 2) ∧ decode 0xF50A = .ok (.ldVxK 5) ∧
  decode 0xF318 = .ok (.ldSTVx 3) ∧ decode 0x5121 = .error (.unknownOpcode 0x5121)

/-! ### The step (30_encoding.md section 6) -/

/-- R81: the fetched word is the byte at pc times 256 plus the byte at pc + 1, in every state. -/
def Obligations.FetchIsHighByteFirst : Prop :=
  ∀ s : State, (fetch s).toNat =
    (memRead s s.pc.toNat).toNat * 256 + (memRead s (s.pc.toNat + 1)).toNat

/-- R82, R84: when no fault stands and the two bytes at pc decode to `i`, the step is `i`'s rule on the state
whose pc is advanced by 2. Nothing else stands around it. -/
def Obligations.StepRunsTheDecodedInstruction : Prop :=
  ∀ (s : State) (i : Instr), s.fault = none →
    decodeBytes [memRead s s.pc.toNat, memRead s (s.pc.toNat + 1)] = .ok (i, []) →
    step s = exec i { s with pc := s.pc + 2 }

/-- R85: an unknown word changes nothing but pc, and `fault` under the policy Halt; the outcome names the
word. It holds for either policy. -/
def Obligations.UnknownWordOnlyAdvances : Prop :=
  ∀ (s : State) (e : DecodeError), s.fault = none → decode (fetch s) = .error e →
    step s = .next { s with
      pc := s.pc + 2
      fault := if unknownOpcodePolicy = .halt then some (.unknownOpcode (fetch s)) else none
      outcome := .raised (.unknownOpcode (fetch s)) }

/-- A step on a faulted machine changes no state of the spec's and reports Halted. The spec marks this as
its own decision (92_eei_decisions.md D2, D22); `outcome` is the report itself (log entry 4). -/
def Obligations.StepOnFaultedMachineReportsHalted : Prop :=
  ∀ (s : State) (c : StepCondition), s.fault = some c → step s = .next { s with outcome := .halted }

/-- Every instruction and every step has a next state: no step ends in a host-level fault or a refusal
(no address is out of range, every condition is an outcome). -/
def Obligations.EveryStepAnswersANextState : Prop :=
  (∀ s : State, ∃ t, step s = .next t) ∧ (∀ (i : Instr) (s : State), ∃ t, exec i s = .next t)

/-- Each step reports the outcome that the order of checks of 60_exceptions.md section 1 gives. -/
def Obligations.StepReportsTheOutcomeOfTheCheckOrder : Prop :=
  ∀ s : State, ∃ t, step s = .next t ∧ t.outcome = expectedOutcome s

/-- Fetch reduces its addresses modulo 4096: pcs that differ by 4096 fetch the same word. The spec marks
the wrap of fetch as its own decision (92_eei_decisions.md D3, D4). -/
def Obligations.FetchWrapsAtTheTopOfMemory : Prop :=
  ∀ s : State, fetch { s with pc := s.pc + 4096 } = fetch s ∧
    (s.pc.toNat % 4096 = 4095 → fetch s = wordOfBytes (memRead s 4095) (memRead s 0))

/-! ### Control flow (40_control_flow.md) -/

/-- RET pops the top entry, as it was pushed; on an empty stack the step's only further change is the fault
(the halting is the spec's own decision D2). -/
def Obligations.ReturnPopsOrUnderflows : Prop :=
  ∀ s : State,
    (∀ (rest : List Word) (w : Word), s.stack = rest ++ [w] →
      exec .ret s = .next { s with stack := rest, pc := w, outcome := .ok }) ∧
    (s.stack = [] → exec .ret s =
      .next { s with fault := some .stackUnderflow, outcome := .raised .stackUnderflow })

/-- CALL pushes the advanced pc and jumps; at depth 16 the step's only further change is the fault (the
halting is the spec's own decision D2). -/
def Obligations.CallPushesOrOverflows : Prop :=
  ∀ (s : State) (nnn : Addr12),
    (s.sp < 16 → ∃ t, exec (.call nnn) s = .next t ∧ t.pc.toNat = nnn.toNat ∧
      t = { s with stack := s.stack ++ [s.pc], pc := t.pc, outcome := .ok }) ∧
    (16 ≤ s.sp → exec (.call nnn) s =
      .next { s with fault := some .stackOverflow, outcome := .raised .stackOverflow })

/-- A CALL followed by the RET at its target leaves pc at the CALL's address plus 2 and the stack as it
was; a CALL at depth 16 signals StackOverflow and keeps the stack. The spec marks this as derived
(40_control_flow.md section 5, "Call and return are inverse"). -/
def Obligations.CallThenReturnRestoresPc : Prop :=
  ∀ (s : State) (nnn : Addr12), s.fault = none → decode (fetch s) = .ok (.call nnn) →
    (s.sp < 16 → decode (fetch { s with pc := zext16 nnn }) = .ok .ret →
      ∃ t u, step s = .next t ∧ step t = .next u ∧
        u = { s with pc := s.pc + 2, outcome := .ok }) ∧
    (16 ≤ s.sp → ∃ t, step s = .next t ∧ t.outcome = .raised .stackOverflow ∧
      t.stack = s.stack ∧ t.pc = s.pc + 2)

/-- R104 to R107: the four compare-and-skip instructions change pc alone, by 2 when they skip. -/
def Obligations.CompareSkipsAdvanceOnePlace : Prop :=
  (∀ (x : RegIdx) (kk : Byte) (s : State),
    exec (.seImm x kk) s = .next { s with
      pc := if readReg s x = kk then s.pc + 2 else s.pc, outcome := .ok } ∧
    exec (.sneImm x kk) s = .next { s with
      pc := if readReg s x = kk then s.pc else s.pc + 2, outcome := .ok }) ∧
  (∀ (x y : RegIdx) (s : State),
    exec (.seReg x y) s = .next { s with
      pc := if readReg s x = readReg s y then s.pc + 2 else s.pc, outcome := .ok } ∧
    exec (.sneReg x y) s = .next { s with
      pc := if readReg s x = readReg s y then s.pc else s.pc + 2, outcome := .ok })

/-- R102, R108: JP nnn goes to nnn; JP V0, nnn goes to the exact sum V0 + nnn, whatever w[11:8] is. -/
def Obligations.JumpsReachTheirExactTarget : Prop :=
  ∀ (nnn : Addr12) (s : State),
    (∃ t, exec (.jp nnn) s = .next t ∧ t = { s with pc := t.pc, outcome := .ok } ∧
      t.pc.toNat = nnn.toNat) ∧
    (∃ t, exec (.jpV0 nnn) s = .next t ∧ t = { s with pc := t.pc, outcome := .ok } ∧
      t.pc.toNat = (readReg s 0).toNat + nnn.toNat)

/-! ### Registers and arithmetic (41_alu.md) -/

/-- R131, R133, R204: load immediate, copy register and read delay timer set one register. -/
def Obligations.LoadsSetOneRegister : Prop :=
  ∀ (x y : RegIdx) (kk : Byte) (s : State),
    SetsOnlyReg (.ldImm x kk) s x kk ∧
    SetsOnlyReg (.ldReg x y) s x (readReg s y) ∧
    SetsOnlyReg (.ldVxDT x) s x s.dt

/-- R134 to R136: bit i of the result is the or, and, exclusive or of the operands' bits i; VF is untouched
unless it is the destination. -/
def Obligations.LogicWorksBitByBit : Prop :=
  ∀ (x y : RegIdx) (s : State),
    (∃ r, SetsOnlyReg (.orReg x y) s x r ∧ ∀ i, r.getLsbD i =
      ((readReg s x).getLsbD i || (readReg s y).getLsbD i)) ∧
    (∃ r, SetsOnlyReg (.andReg x y) s x r ∧ ∀ i, r.getLsbD i =
      ((readReg s x).getLsbD i && (readReg s y).getLsbD i)) ∧
    (∃ r, SetsOnlyReg (.xorReg x y) s x r ∧ ∀ i, r.getLsbD i =
      ((readReg s x).getLsbD i ^^ (readReg s y).getLsbD i))

/-- R132: add immediate wraps modulo 256 and sets no flag. -/
def Obligations.AddImmediateWrapsWithoutFlag : Prop :=
  ∀ (x : RegIdx) (kk : Byte) (s : State), ∃ r, SetsOnlyReg (.addImm x kk) s x r ∧
    r.toNat = ((readReg s x).toNat + kk.toNat) % 256

/-- R138: the sum modulo 256, and VF = 1 exactly when the exact sum exceeds 255. That the flag stands when
x = 15 is the spec's own decision D7. -/
def Obligations.AddSetsCarry : Prop :=
  ∀ (x y : RegIdx) (s : State), ∃ r : Byte,
    r.toNat = ((readReg s x).toNat + (readReg s y).toNat) % 256 ∧
    SetsRegAndFlag (.addReg x y) s x r (255 < (readReg s x).toNat + (readReg s y).toNat)

/-- R139, R140: the exact difference reduced modulo 256, and VF = 1 exactly when no borrow occurs. That the
flag stands when x = 15 is the spec's own decision D7. -/
def Obligations.SubtractsSetNoBorrow : Prop :=
  ∀ (x y : RegIdx) (s : State),
    (∃ r : Byte, (r.toNat : Int) = ((readReg s x).toNat - (readReg s y).toNat : Int) % 256 ∧
      SetsRegAndFlag (.sub x y) s x r ((readReg s x).toNat ≥ (readReg s y).toNat)) ∧
    (∃ r : Byte, (r.toNat : Int) = ((readReg s y).toNat - (readReg s x).toNat : Int) % 256 ∧
      SetsRegAndFlag (.subn x y) s x r ((readReg s y).toNat ≥ (readReg s x).toNat))

/-- R141, R142: shifts by one of V[x] alone, VF the bit shifted out; the same for every y. That the flag
stands when x = 15 is the spec's own decision D7, and that y is never used is its decision D29. -/
def Obligations.ShiftsSetTheLostBit : Prop :=
  ∀ (x y : RegIdx) (s : State),
    (∃ r : Byte, r.toNat = (readReg s x).toNat / 2 ∧
      SetsRegAndFlag (.shr x y) s x r ((readReg s x).toNat % 2 = 1)) ∧
    (∃ r : Byte, r.toNat = 2 * (readReg s x).toNat % 256 ∧
      SetsRegAndFlag (.shl x y) s x r (128 ≤ (readReg s x).toNat)) ∧
    (∀ z, exec (.shr x y) s = exec (.shr x z) s ∧ exec (.shl x y) s = exec (.shl x z) s)

/-- R143: one draw, masked by kk, whatever the byte drawn is (`Config.randomByte` has no body); every bit
that kk has clear is clear in the result. -/
def Obligations.RandomIsMaskedAndDrawsOnce : Prop :=
  ∀ (x : RegIdx) (kk : Byte) (s : State), ∃ t, exec (.rnd x kk) s = .next t ∧
    t = { s with v := t.v, draws := s.draws + 1, outcome := .ok } ∧
    readReg t x = Config.randomByte s.seed s.draws &&& kk ∧
    (∀ i, kk.getLsbD i = false → (readReg t x).getLsbD i = false) ∧
    ∀ j, j ≠ x → readReg t j = readReg s j

/-! ### Index register and memory (42_index_memory.md) -/

/-- R161: LD I, nnn sets I and nothing else. -/
def Obligations.LoadIndexSetsI : Prop :=
  ∀ (nnn : Addr12) (s : State), ∃ t, exec (.ldI nnn) s = .next t ∧
    t = { s with I := t.I, outcome := .ok } ∧ t.I.toNat = nnn.toNat

/-- ADD I, Vx adds modulo 2^16 and sets no flag; LD F, Vx sets I to the exact 80 + 5 V[x]. The wrap of I and
the missing mask for values above 15 are the spec's own decisions D5 and D23. -/
def Obligations.IndexArithmeticWritesIAlone : Prop :=
  ∀ (x : RegIdx) (s : State),
    (∃ t, exec (.addI x) s = .next t ∧ t = { s with I := t.I, outcome := .ok } ∧
      t.I.toNat = (s.I.toNat + (readReg s x).toNat) % 65536) ∧
    (∃ t, exec (.ldF x) s = .next t ∧ t = { s with I := t.I, outcome := .ok } ∧
      t.I.toNat = 80 + 5 * (readReg s x).toNat)

/-- R164: the three digits land at I, I + 1 and I + 2 modulo 4096, and no other byte changes. -/
def Obligations.DecimalDigitsAreStored : Prop :=
  ∀ (x : RegIdx) (s : State), ∃ t, exec (.ldB x) s = .next t ∧
    t = { s with mem := t.mem, outcome := .ok } ∧
    (memRead t (s.I.toNat)).toNat = (readReg s x).toNat / 100 ∧
    (memRead t (s.I.toNat + 1)).toNat = (readReg s x).toNat / 10 % 10 ∧
    (memRead t (s.I.toNat + 2)).toNat = (readReg s x).toNat % 10 ∧
    ∀ a, (∀ b ∈ storedAddrs s (.ldB x), memAddr a ≠ memAddr b) → memRead t a = memRead s a

/-- R165: V0 to Vx, inclusive, land at I to I + x modulo 4096, and no other byte changes. That I itself is
unchanged is the spec's own decision D10. -/
def Obligations.RegistersAreStoredFromI : Prop :=
  ∀ (x : RegIdx) (s : State), ∃ t, exec (.stRegs x) s = .next t ∧
    t = { s with mem := t.mem, outcome := .ok } ∧
    (∀ i : RegIdx, i ≤ x → memRead t (s.I.toNat + i.val) = readReg s i) ∧
    ∀ a, (∀ b ∈ storedAddrs s (.stRegs x), memAddr a ≠ memAddr b) → memRead t a = memRead s a

/-- R166: V0 to Vx, inclusive, receive the bytes at I to I + x modulo 4096; the other registers keep their
values. That I itself is unchanged is the spec's own decision D10. -/
def Obligations.RegistersAreLoadedFromI : Prop :=
  ∀ (x : RegIdx) (s : State), ∃ t, exec (.ldRegs x) s = .next t ∧
    t = { s with v := t.v, outcome := .ok } ∧
    ∀ i : RegIdx, readReg t i = if i ≤ x then memRead s (s.I.toNat + i.val) else readReg s i

/-- While no store has overwritten [80, 160), LD F, Vx with a digit d points I at the five bytes FONT[5d] to
FONT[5d + 4], whatever FONT is. The spec marks this as derived (42_index_memory.md section 4). -/
def Obligations.FontPointerFindsTheGlyph : Prop :=
  ∀ (x : RegIdx) (s : State), (readReg s x).toNat < 16 →
    (∀ j : Fin 80, memRead s (80 + j.val) = Config.font j) →
    ∃ t, exec (.ldF x) s = .next t ∧ ∀ (k : Nat) (j : Fin 80), k < 5 →
      j.val = 5 * (readReg s x).toNat + k → memRead t (t.I.toNat + k) = Config.font j

/-- A byte pair stored by Fx55 is the word the next fetch at that address sees. The spec marks the coherence
of fetch and stores as derived (20_memory.md section 4). -/
def Obligations.FetchSeesStoredRegisters : Prop :=
  ∀ (x i j : RegIdx) (s : State), j.val = i.val + 1 → j ≤ x →
    ∃ t, exec (.stRegs x) s = .next t ∧
      fetch { t with pc := s.I + BitVec.ofNat 16 i.val } = wordOfBytes (readReg s i) (readReg s j)

/-! ### Graphics (43_graphics.md) -/

/-- R180: every cell off, nothing else changed. -/
def Obligations.ClearTurnsEveryCellOff : Prop :=
  ∀ s : State, ∃ t, exec .cls s = .next t ∧ t = { s with fb := t.fb, outcome := .ok } ∧
    ∀ c r, pixel t c r = false

/-- DRW toggles exactly the cells under the sprite's set bits, wrapped at the edges, and VF is 1 exactly
when one of them was on before. The coordinates are the values before VF is written and bit 7 is column
0: the spec's own decisions D8 and D9. -/
def Obligations.DrawTogglesTheCoveredCells : Prop :=
  ∀ (x y : RegIdx) (n : Fin 16) (s : State), ∃ t, exec (.drw x y n) s = .next t ∧
    t = { s with fb := t.fb, v := t.v, outcome := .ok } ∧
    (∀ c r, SpriteCovers s x y n.val c r → pixel t c r = !pixel s c r) ∧
    (∀ c r, ¬ SpriteCovers s x y n.val c r → pixel t c r = pixel s c r) ∧
    ((∃ c r, SpriteCovers s x y n.val c r ∧ pixel s c r = true) → readReg t 15 = 1) ∧
    (¬ (∃ c r, SpriteCovers s x y n.val c r ∧ pixel s c r = true) → readReg t 15 = 0) ∧
    ∀ j, j ≠ 15 → readReg t j = readReg s j

/-- Drawing the same sprite twice restores the framebuffer, and VF after the second draw is 1 exactly when
some set bit's cell was off before the first. The spec marks this as derived (43_graphics.md section 2)
and corrects the source's flag clause (90_conflicts.md C4). -/
def Obligations.DrawingTwiceRestoresTheScreen : Prop :=
  ∀ (x y : RegIdx) (n : Fin 16) (s : State), x ≠ 15 → y ≠ 15 →
    ∃ t u, exec (.drw x y n) s = .next t ∧ exec (.drw x y n) t = .next u ∧
      u.fb = s.fb ∧
      (readReg u 15 = 1 ↔ ∃ c r, SpriteCovers s x y n.val c r ∧ pixel s c r = false)

/-- After CLS a draw sets VF = 0, turns on exactly the sprite's cells, and does to framebuffer and registers
what it does on a freshly constructed machine with the same registers, I and memory. The spec marks
this as derived (43_graphics.md section 2). -/
def Obligations.DrawAfterClearIsAsOnAFreshMachine : Prop :=
  ∀ (x y : RegIdx) (n : Fin 16) (s : State),
    ∃ t u f, exec .cls s = .next t ∧ exec (.drw x y n) t = .next u ∧
      exec (.drw x y n) { State.reset with v := s.v, I := s.I, mem := s.mem } = .next f ∧
      u.fb = f.fb ∧ u.v = f.v ∧ readReg u 15 = 0 ∧
      ∀ c r, pixel u c r = true ↔ SpriteCovers s x y n.val c r

/-! ### Keypad and timers (44_input_timers.md) -/

/-- SKP and SKNP test key V[x] mod 16 and skip or not; nothing else changes. The modulus is the spec's own
decision D6. -/
def Obligations.KeySkipsTestKeyModSixteen : Prop :=
  ∀ (x : RegIdx) (k : Fin 16) (s : State), k.val = (readReg s x).toNat % 16 →
    exec (.skp x) s = .next { s with
      pc := if keyPressed s k = true then s.pc + 2 else s.pc, outcome := .ok } ∧
    exec (.sknp x) s = .next { s with
      pc := if keyPressed s k = true then s.pc else s.pc + 2, outcome := .ok }

/-- R203: with a key pressed, V[x] receives the lowest pressed index; with none, pc goes back to the
instruction and the outcome is KeyWait (reporting it is the spec's own decision D21). -/
def Obligations.KeyWaitTakesTheLowestKeyOrRewinds : Prop :=
  ∀ (x : RegIdx) (s : State),
    (∀ k : Fin 16, keyPressed s k = true → (∀ j < k, keyPressed s j = false) →
      ∃ r : Byte, r.toNat = k.val ∧ SetsOnlyReg (.ldVxK x) s x r) ∧
    ((∀ k, keyPressed s k = false) →
      exec (.ldVxK x) s = .next { s with pc := s.pc - 2, outcome := .keyWait })

/-- R205, R206: the timers receive V[x]; nothing else changes. -/
def Obligations.TimersAreSetFromARegister : Prop :=
  ∀ (x : RegIdx) (s : State),
    exec (.ldDTVx x) s = .next { s with dt := readReg s x, outcome := .ok } ∧
    exec (.ldSTVx x) s = .next { s with st := readReg s x, outcome := .ok }

/-! ### What each instruction leaves alone -/

/-- The column "writes" of the table of 10_state.md section 2: an instruction leaves every register that the
table does not give it as it was. The spec marks that table as derived. -/
def Obligations.OnlyTheListedRegistersAreWritten : Prop :=
  ∀ (i : Instr) (s t : State), exec i s = .next t →
    ∀ j, writesReg s i j = false → readReg t j = readReg s j

/-- The column "reads" of the same table, as noninterference: the registers it does not list for an
instruction influence nothing but themselves. From two states that agree on all but such registers,
the instruction makes the same changes. -/
def Obligations.OnlyTheListedRegistersAreRead : Prop :=
  ∀ (i : Instr) (s s' : State), s' = { s with v := s'.v } →
    (∀ j, readsReg i j = true → readReg s' j = readReg s j) →
    ∃ t t', exec i s = .next t ∧ exec i s' = .next t' ∧ t' = { t with v := t'.v } ∧
      ∀ j, writesReg s i j = true → readReg t' j = readReg t j

/-- The table of 20_memory.md section 3: an instruction changes no byte outside the addresses the table gives
it, and only Fx33 and Fx55 have any. The spec marks that table as derived. -/
def Obligations.OnlyTheListedAddressesAreStoredTo : Prop :=
  (∀ (i : Instr) (s t : State), exec i s = .next t →
    ∀ a, (∀ b ∈ storedAddrs s i, memAddr a ≠ memAddr b) → memRead t a = memRead s a) ∧
  (∀ (i : Instr) (s : State), storedAddrs s i ≠ [] →
    (∃ x, i = .ldB x) ∨ (∃ x, i = .stRegs x))

/-- `I` "is written by Annn, Fx1E and Fx29" (10_state.md section 3): no other step changes it. -/
def Obligations.OnlyThreeInstructionsWriteI : Prop :=
  ∀ s t : State, step s = .next t → t.I ≠ s.I →
    ∃ i, decode (fetch s) = .ok i ∧ writesIndex i = true

/-- "A step never changes DT or ST except by Fx15 or Fx18" (10_state.md section 6). -/
def Obligations.StepsChangeTimersOnlyByFx15AndFx18 : Prop :=
  ∀ s t : State, step s = .next t →
    (t.dt ≠ s.dt → ∃ x, decode (fetch s) = .ok (.ldDTVx x)) ∧
    (t.st ≠ s.st → ∃ x, decode (fetch s) = .ok (.ldSTVx x))

/-- The framebuffer "is written only by 00E0 (clear) and Dxyn (XOR draw)" (10_state.md section 7). -/
def Obligations.StepsChangeTheScreenOnlyByClearAndDraw : Prop :=
  ∀ s t : State, step s = .next t → t.fb ≠ s.fb →
    decode (fetch s) = .ok .cls ∨ ∃ x y n, decode (fetch s) = .ok (.drw x y n)

/-- "only 2nnn (push) and 00EE (pop) read or write" the call stack (10_state.md section 5): a step that changes
it is one of the two, and its length moves by one. -/
def Obligations.StepsChangeTheStackOnlyByCallAndReturn : Prop :=
  ∀ s t : State, step s = .next t → t.stack ≠ s.stack →
    (∃ nnn, decode (fetch s) = .ok (.call nnn) ∧ t.stack = s.stack ++ [s.pc + 2]) ∨
    (decode (fetch s) = .ok .ret ∧ s.stack = t.stack ++ [t.pc])

/-- "Only Cxkk draws from it, one byte per execution" (10_state.md section 8), and no step changes the seed.
That the source is a seed and a count of draws is the model's choice (log entry 1). -/
def Obligations.StepsDrawOnlyByCxkk : Prop :=
  ∀ s t : State, step s = .next t → t.seed = s.seed ∧
    ((s.fault = none ∧ ∃ x kk, decode (fetch s) = .ok (.rnd x kk)) → t.draws = s.draws + 1) ∧
    (¬ (s.fault = none ∧ ∃ x kk, decode (fetch s) = .ok (.rnd x kk)) → t.draws = s.draws)

/-! ### The host (60_exceptions.md, 70_reset_and_hazards.md) -/

/-- R244: SetKey writes one entry of the keypad latch and nothing else, and neither a step nor a TimerTick
writes the latch. -/
def Obligations.SetKeyIsTheOnlyWriterOfTheLatch : Prop :=
  ∀ s : State,
    (∀ (k : Fin 16) (b : Bool), setKey s k b = { s with keys := (setKey s k b).keys } ∧
      ∀ j, keyPressed (setKey s k b) j = if j = k then b else keyPressed s j) ∧
    (∀ t, step s = .next t → t.keys = s.keys) ∧ (timerTick s).keys = s.keys

/-- One TimerTick takes 1 from each nonzero timer, leaves a zero one, and changes nothing else, on a halted
machine too. That the tick is a host action is the spec's own decision D15. -/
def Obligations.TimerTickDecrementsTowardZero : Prop :=
  ∀ s : State, timerTick s = { s with dt := (timerTick s).dt, st := (timerTick s).st } ∧
    (timerTick s).dt.toNat = s.dt.toNat - 1 ∧ (timerTick s).st.toNat = s.st.toNat - 1

/-- The state after construction with an empty image (70_reset_and_hazards.md section 1). The released keys,
I = 0 and no fault are the spec's own decisions D13, D27 and D2; FONT is open. -/
def Obligations.ResetLeavesTheConstructionState : Prop :=
  State.reset.pc.toNat = 512 ∧ State.reset.I.toNat = 0 ∧ State.reset.sp = 0 ∧
  State.reset.dt.toNat = 0 ∧ State.reset.st.toNat = 0 ∧ State.reset.fault = none ∧
  State.reset.seed = .default ∧
  (∀ i, (readReg State.reset i).toNat = 0) ∧ (∀ c r, pixel State.reset c r = false) ∧
  (∀ k, keyPressed State.reset k = false) ∧
  (∀ j : Fin 80, memRead State.reset (80 + j.val) = Config.font j) ∧
  ∀ a, a < 4096 → a < 80 ∨ 160 ≤ a → (memRead State.reset a).toNat = 0

/-- R262: an image of at most 3584 bytes stands verbatim from 512 on, every byte after it is 0, every byte
before 512 holds its construction value, and every other field is as after reset but the seed, which is the
host's. -/
def Obligations.LoadCopiesTheImageVerbatim : Prop :=
  ∀ (image : List Byte) (seed : Config.Seed), image.length ≤ 3584 →
    ∃ s, construct image seed = .ok s ∧ s = { State.reset with seed := seed, mem := s.mem } ∧
      (∀ (j : Nat) (b : Byte), image[j]? = some b → memRead s (512 + j) = b) ∧
      (∀ a, 512 + image.length ≤ a → a < 4096 → (memRead s a).toNat = 0) ∧
      ∀ a, a < 512 → memRead s a = memRead State.reset a

/-- Load fails with ImageTooLarge(N), and there is no machine, exactly when N exceeds 3584. That a failed
load writes nothing is the spec's own decision D20. -/
def Obligations.LoadFailsExactlyOnTooLargeImages : Prop :=
  ∀ (image : List Byte) (seed : Config.Seed),
    construct image seed = .error (.imageTooLarge image.length) ↔ 3584 < image.length

/-- At each of the three stop points of 60_exceptions.md section 4, any number of steps leaves the state
unchanged and reports Halted, Ok or KeyWait. The stop points are the spec's own decision D22; `outcome` is
the report itself (log entry 4). -/
def Obligations.StopPointsHoldStill : Prop :=
  ∀ (s : State) (n : Nat),
    (s.Faulted → core.run (n + 1) s = .next { s with outcome := .halted }) ∧
    (s.IdleLoop → core.run (n + 1) s = .next { s with outcome := .ok }) ∧
    (s.KeyWait → core.run (n + 1) s = .next { s with outcome := .keyWait })

/-- A fault is never cleared: whatever the host does, the machine keeps it, and only the timers, the keypad
latch and the reported outcome can differ. The spec marks the sticky fault as its own decision D2. -/
def Obligations.FaultIsNeverCleared : Prop :=
  ∀ (s t : State) (c : StepCondition) (events : List Event), s.fault = some c →
    runEvents s events = .next t →
    t = { s with dt := t.dt, st := t.st, keys := t.keys, outcome := t.outcome }

/-! ### Invariants -/

/-- The invariant holds right after reset. Its clauses on reported outcomes rest on the model's own field
(log entry 4). -/
def Obligations.InvHoldsAtReset : Prop := State.reset.Inv

/-- Every step from a state that meets the invariant gives one that meets it: canonical memory inside the
address space, at most 16 return addresses, an UnknownOpcode fault only under Halt and only for a word
that is no instruction, and every reported halting condition standing in `fault`. The canonical form and the
clauses on reported outcomes are about the model's own representation (log entries 4 and 7). -/
def Obligations.EveryStepKeepsInv : Prop :=
  ∀ s t : State, s.Inv → step s = .next t → t.Inv

/-- Every run from a construction, with any host actions between the steps, has a next state that meets the
invariant. -/
def Obligations.EveryRunFromConstructionKeepsInv : Prop :=
  ∀ (image : List Byte) (seed : Config.Seed) (s : State) (events : List Event),
    construct image seed = .ok s → ∃ t, runEvents s events = .next t ∧ t.Inv

/-- Everything that may happen between or as steps keeps the invariant: from every state that meets it, reached
or not, each event of the host's (a step, a SetKey, a TimerTick) answers a next state that meets it. The
clauses on the model's own representation are those of `EveryStepKeepsInv`. -/
def Obligations.EveryEventKeepsInv : Prop :=
  ∀ (s : State) (e : Event), s.Inv → ∃ t, runEvent s e = .next t ∧ t.Inv

/-- The machine that a construction answers meets the invariant, whatever image it loads. -/
def Obligations.EveryConstructionMeetsInv : Prop :=
  ∀ (image : List Byte) (seed : Config.Seed) (s : State), construct image seed = .ok s → s.Inv
end

