-- ==== Sys2Proof/Laws/Encoding.lean ====
section
/-! SUPPORT. The fields of an encoded word are the ones it was built from (30_encoding.md R71, R72). -/

namespace Sys2Proof

variable (op n : BitVec 4) (x y : RegIdx) (kk : Byte) (nnn : Addr12)

/-! ### The bits of each format -/

theorem getLsbD_encodeNNN (i : Nat) :
    (encodeNNN op nnn).getLsbD i = if i < 12 then nnn.getLsbD i else op.getLsbD (i - 12) :=
  BitVec.getLsbD_append

theorem getLsbD_encodeXKK (i : Nat) :
    (encodeXKK op x kk).getLsbD i =
      if i < 8 then kk.getLsbD i
      else if i < 12 then (BitVec.ofFin x : BitVec 4).getLsbD (i - 8) else op.getLsbD (i - 12) := by
  refine (BitVec.getLsbD_append (x := op ++ (BitVec.ofFin x : BitVec 4)) (y := kk)).trans ?_
  rw [BitVec.getLsbD_append]
  by_cases h : i < 8
  · simp [h]
  · by_cases h' : i < 12
    · simp [h, h', show i - 8 < 4 by omega]
    · simp [h, h', show ¬ i - 8 < 4 by omega, show i - 8 - 4 = i - 12 by omega]

theorem getLsbD_encodeXYN (i : Nat) :
    (encodeXYN op x y n).getLsbD i =
      if i < 4 then n.getLsbD i
      else if i < 8 then (BitVec.ofFin y : BitVec 4).getLsbD (i - 4)
      else if i < 12 then (BitVec.ofFin x : BitVec 4).getLsbD (i - 8) else op.getLsbD (i - 12) := by
  have hxy : encodeXYN op x y n = encodeXKK op x ((BitVec.ofFin y : BitVec 4) ++ n) :=
    BitVec.eq_of_getLsbD_eq fun i _ => by
      rw [getLsbD_encodeXKK, BitVec.getLsbD_append]
      refine (BitVec.getLsbD_append
        (x := op ++ (BitVec.ofFin x : BitVec 4) ++ (BitVec.ofFin y : BitVec 4)) (y := n)).trans ?_
      rw [BitVec.getLsbD_append, BitVec.getLsbD_append]
      by_cases h4 : i < 4
      · simp [h4, show i < 8 by omega]
      · by_cases h8 : i < 8
        · simp [h4, h8, show i - 4 < 4 by omega]
        · by_cases h12 : i < 12
          · simp [h4, h8, h12, show ¬ i - 4 < 4 by omega, show i - 4 - 4 = i - 8 by omega,
              show i - 8 < 4 by omega]
          · simp [h4, h8, h12, show ¬ i - 4 < 4 by omega, show i - 4 - 4 = i - 8 by omega,
              show ¬ i - 8 < 4 by omega, show i - 8 - 4 = i - 12 by omega]
  rw [hxy, getLsbD_encodeXKK, BitVec.getLsbD_append]
  by_cases h4 : i < 4
  · simp [h4, show i < 8 by omega]
  · simp [h4]

/-! ### The fields of each format -/

@[simp] theorem opField_encodeNNN : opField (encodeNNN op nnn) = op := by
  ext i hi; simp [opField, getLsbD_encodeNNN, BitVec.getLsbD_eq_getElem hi]

@[simp] theorem nnnField_encodeNNN : nnnField (encodeNNN op nnn) = nnn := by
  ext i hi; simp [nnnField, getLsbD_encodeNNN, hi]

@[simp] theorem opField_encodeXKK : opField (encodeXKK op x kk) = op := by
  ext i hi; simp [opField, getLsbD_encodeXKK, show ¬ 12 + i < 8 by omega, BitVec.getLsbD_eq_getElem hi]

@[simp] theorem xField_encodeXKK : xField (encodeXKK op x kk) = x := by
  have : (encodeXKK op x kk).extractLsb' 8 4 = BitVec.ofFin x := by
    ext i hi; simp [getLsbD_encodeXKK, hi, show 8 + i < 12 by omega]
  rw [xField, this]

@[simp] theorem kkField_encodeXKK : kkField (encodeXKK op x kk) = kk := by
  ext i hi; simp [kkField, getLsbD_encodeXKK, hi]

@[simp] theorem opField_encodeXYN : opField (encodeXYN op x y n) = op := by
  ext i hi
  simp [opField, getLsbD_encodeXYN, show ¬ 12 + i < 8 by omega, show ¬ 12 + i < 4 by omega,
    BitVec.getLsbD_eq_getElem hi]

@[simp] theorem xField_encodeXYN : xField (encodeXYN op x y n) = x := by
  have : (encodeXYN op x y n).extractLsb' 8 4 = BitVec.ofFin x := by
    ext i hi
    simp [getLsbD_encodeXYN, hi, show ¬ 8 + i < 4 by omega, show 8 + i < 12 by omega]
  rw [xField, this]

@[simp] theorem yField_encodeXYN : yField (encodeXYN op x y n) = y := by
  have : (encodeXYN op x y n).extractLsb' 4 4 = BitVec.ofFin y := by
    ext i hi; simp [getLsbD_encodeXYN, hi, show 4 + i < 8 by omega]
  rw [yField, this]

@[simp] theorem nField_encodeXYN : nField (encodeXYN op x y n) = n := by
  ext i hi; simp [nField, getLsbD_encodeXYN, hi]

/-- The bits of a word from its bytes (R56). -/
theorem getLsbD_wordOfBytes (hi lo : Byte) (i : Nat) :
    (wordOfBytes hi lo).getLsbD i = if i < 8 then lo.getLsbD i else hi.getLsbD (i - 8) :=
  BitVec.getLsbD_append

/-- The two bytes of a word give the word back (R56, R81). -/
@[simp] theorem wordOfBytes_hi_lo (w : Word) : wordOfBytes (hiByte w) (loByte w) = w := by
  refine BitVec.eq_of_getLsbD_eq fun i hi => ?_
  rw [getLsbD_wordOfBytes]
  by_cases h : i < 8
  · simp [h, loByte]
  · simp [h, hiByte, show i - 8 < 8 by omega, show 8 + (i - 8) = i by omega]

theorem ofFin_xField (w : Word) : (BitVec.ofFin (xField w) : BitVec 4) = w.extractLsb' 8 4 := rfl
theorem ofFin_yField (w : Word) : (BitVec.ofFin (yField w) : BitVec 4) = w.extractLsb' 4 4 := rfl

/-- The fields determine a word of format NNN (R71). -/
theorem encodeNNN_fields (w : Word) : encodeNNN (opField w) (nnnField w) = w := by
  refine BitVec.eq_of_getLsbD_eq fun i hi => ?_
  rw [getLsbD_encodeNNN]
  by_cases h : i < 12
  · simp [h, nnnField]
  · simp [h, opField, show i - 12 < 4 by omega, show 12 + (i - 12) = i by omega]

/-- The fields determine a word of format XKK (R71). -/
theorem encodeXKK_fields (w : Word) : encodeXKK (opField w) (xField w) (kkField w) = w := by
  refine BitVec.eq_of_getLsbD_eq fun i hi => ?_
  rw [getLsbD_encodeXKK, ofFin_xField]
  by_cases h : i < 8
  · simp [h, kkField]
  · by_cases h' : i < 12
    · simp [h, h', show i - 8 < 4 by omega, show 8 + (i - 8) = i by omega]
    · simp [h, h', opField, show i - 12 < 4 by omega, show 12 + (i - 12) = i by omega]

/-- The fields determine a word of format XYN (R71). -/
theorem encodeXYN_fields (w : Word) :
    encodeXYN (opField w) (xField w) (yField w) (nField w) = w := by
  refine BitVec.eq_of_getLsbD_eq fun i hi => ?_
  rw [getLsbD_encodeXYN, ofFin_xField, ofFin_yField]
  by_cases h4 : i < 4
  · simp [h4, nField]
  · by_cases h8 : i < 8
    · simp [h4, h8, show i - 4 < 4 by omega, show 4 + (i - 4) = i by omega]
    · by_cases h12 : i < 12
      · simp [h4, h8, h12, show i - 8 < 4 by omega, show 8 + (i - 8) = i by omega]
      · simp [h4, h8, h12, opField, show i - 12 < 4 by omega, show 12 + (i - 12) = i by omega]

/-! ### The masks of the opcode table keep exactly the fixed fields (R75, R76) -/

theorem getLsbD_F000 : ∀ i < 16, (0xF000#16).getLsbD i = decide (12 ≤ i) := by decide
theorem getLsbD_F00F : ∀ i < 16, (0xF00F#16).getLsbD i = decide (i < 4 ∨ 12 ≤ i) := by decide
theorem getLsbD_F0FF : ∀ i < 16, (0xF0FF#16).getLsbD i = decide (i < 8 ∨ 12 ≤ i) := by decide

theorem getLsbD_opField (w : Word) {i : Nat} (h : ¬ i < 12) (hi : i < 16) :
    (opField w).getLsbD (i - 12) = w.getLsbD i := by
  simp [opField, show i - 12 < 4 by omega, show 12 + (i - 12) = i by omega]

theorem and_F000 (w : Word) : w &&& 0xF000#16 = encodeNNN (opField w) 0 := by
  refine BitVec.eq_of_getLsbD_eq fun i hi => ?_
  rw [getLsbD_encodeNNN, BitVec.getLsbD_and, getLsbD_F000 i hi]
  by_cases h : i < 12
  · simp [h]
  · simp only [h, if_false, getLsbD_opField w h hi]
    simp [show 12 ≤ i by omega]

theorem and_F00F (w : Word) : w &&& 0xF00F#16 = encodeXYN (opField w) 0 0 (nField w) := by
  refine BitVec.eq_of_getLsbD_eq fun i hi => ?_
  rw [getLsbD_encodeXYN, BitVec.getLsbD_and, getLsbD_F00F i hi]
  by_cases h4 : i < 4
  · simp [h4, nField]
  · by_cases h : i < 12
    · by_cases h8 : i < 8 <;> simp [h, h4, h8]
    · simp only [h4, h, show ¬ i < 8 by omega, if_false, getLsbD_opField w h hi]
      simp [show 12 ≤ i by omega]

theorem and_F0FF (w : Word) : w &&& 0xF0FF#16 = encodeXKK (opField w) 0 (kkField w) := by
  refine BitVec.eq_of_getLsbD_eq fun i hi => ?_
  rw [getLsbD_encodeXKK, BitVec.getLsbD_and, getLsbD_F0FF i hi]
  by_cases h8 : i < 8
  · simp [h8, kkField]
  · by_cases h : i < 12
    · simp [h, h8]
    · simp only [h8, h, if_false, getLsbD_opField w h hi]
      simp [show 12 ≤ i by omega]

theorem and_FFFF (w : Word) : w &&& 0xFFFF#16 = w := BitVec.and_allOnes

end Sys2Proof
end

