-- ==== Sys2Proof/Laws/Memory.lean ====
section
/-! SUPPORT. What the memory operations do (20_memory.md R54, R59): a read after a write, and the canonical
form, which every operation keeps. -/

namespace Sys2Proof.Machine

theorem Memory.byteAt_unlist (m : Memory) (a k : Nat) :
    (m.unlist a).byteAt k = if k = a then constructionByte k else m.byteAt k := by
  induction m with
  | nil => simp [unlist, byteAt]
  | cons p rest ih =>
    obtain ⟨q, b⟩ := p
    by_cases hq : q = a
    · have : Memory.unlist ((q, b) :: rest) a = Memory.unlist rest a := by simp [unlist, hq]
      rw [this, ih]
      by_cases hk : k = a
      · simp [hk]
      · simp [hk, byteAt, hq, Ne.symm hk]
    · have : Memory.unlist ((q, b) :: rest) a = (q, b) :: Memory.unlist rest a := by
        simp [unlist, hq]
      rw [this]
      by_cases hk : q = k
      · subst hk; simp [byteAt, hq]
      · simp [byteAt, hk, ih]

theorem Memory.byteAt_enlist (m : Memory) (p : Host.Cell) (k : Nat)
    (h : ∀ q ∈ m, q.1 ≠ p.1) :
    (m.enlist p).byteAt k = if k = p.1 then p.2 else m.byteAt k := by
  induction m with
  | nil => simp [enlist, byteAt, eq_comm]
  | cons q rest ih =>
    have hq : q.1 ≠ p.1 := h q (by simp)
    have ih := ih (fun r hr => h r (by simp [hr]))
    unfold enlist
    split
    · simp only [byteAt, eq_comm]
    · simp only [byteAt, ih]
      by_cases hk : k = p.1
      · simp [hk, hq]
      · simp [hk]

theorem Memory.mem_unlist {m : Memory} {a : Nat} {q : Host.Cell} :
    q ∈ m.unlist a ↔ q ∈ m ∧ q.1 ≠ a := by
  simp [unlist]

/-- A cell written reads back as written; every other cell keeps its byte. -/
theorem Memory.byteAt_store (m : Memory) (a k : Nat) (b : Byte) :
    (m.store a b).byteAt k = if k = a then b else m.byteAt k := by
  unfold store
  split
  · rename_i hb
    rw [byteAt_unlist]
    split
    · rename_i hk; rw [hb, hk]
    · rfl
  · rw [byteAt_enlist (m.unlist a) (a, b) k (fun q hq => (mem_unlist.mp hq).2), byteAt_unlist]
    split <;> simp_all

theorem Memory.mem_enlist {m : Memory} {p q : Host.Cell} : q ∈ m.enlist p ↔ q = p ∨ q ∈ m := by
  induction m with
  | nil => simp [enlist]
  | cons r rest ih =>
    unfold enlist
    split
    · simp
    · simp only [List.mem_cons, ih]; tauto

theorem Memory.unlist_wf {m : Memory} (h : m.wf) (a : Nat) : (m.unlist a).wf :=
  ⟨h.1.filter _, fun q hq => h.2 q (mem_unlist.mp hq).1⟩

theorem Memory.enlist_wf {m : Memory} (h : m.wf) {p : Host.Cell} (hp : p.1 < Config.memSize)
    (hb : p.2 ≠ constructionByte p.1) (hfresh : ∀ q ∈ m, q.1 ≠ p.1) : (m.enlist p).wf := by
  refine ⟨?_, fun q hq => ?_⟩
  · have hsorted := h.1
    clear h
    induction m with
    | nil => simp [enlist]
    | cons r rest ih =>
      obtain ⟨hr, hrest⟩ := List.pairwise_cons.mp hsorted
      have hne : r.1 ≠ p.1 := hfresh r (by simp)
      unfold enlist
      split
      · rename_i hlt
        refine List.pairwise_cons.mpr ⟨fun q hq => ?_, hsorted⟩
        rcases List.mem_cons.mp hq with rfl | hq
        · exact hlt
        · exact hlt.trans (hr q hq)
      · refine List.pairwise_cons.mpr ⟨fun q hq => ?_, ih (fun q hq => hfresh q (by simp [hq])) hrest⟩
        rcases mem_enlist.mp hq with rfl | hq
        · omega
        · exact hr q hq
  · rcases mem_enlist.mp hq with rfl | hq
    · exact ⟨hp, hb⟩
    · exact h.2 q hq

/-- The canonical form survives a write of any byte inside the address space. -/
theorem Memory.store_wf {m : Memory} (h : m.wf) {a : Nat} (ha : a < Config.memSize) (b : Byte) :
    (m.store a b).wf := by
  unfold store
  split
  · exact unlist_wf h a
  · exact enlist_wf (p := (a, b)) (unlist_wf h a) ha ‹_› (fun q hq => (mem_unlist.mp hq).2)

theorem memAddr_lt (a : Nat) : memAddr a < Config.memSize := Nat.mod_lt _ (by decide)

/-- `MemRead` after `MemWrite` (R54, R59). -/
theorem memRead_memWrite (s : State) (a k : Nat) (b : Byte) :
    memRead (memWrite s a b) k = if memAddr k = memAddr a then b else memRead s k :=
  Memory.byteAt_store _ _ _ _

/-- `MemWrite` keeps the canonical form. -/
theorem memWrite_wf {s : State} (h : s.mem.wf) (a : Nat) (b : Byte) : (memWrite s a b).mem.wf :=
  Memory.store_wf h (memAddr_lt a) b

theorem reset_memory_wf : State.reset.mem.wf := ⟨.nil, by simp [State.reset]⟩

/-- Canonical memories that read alike everywhere are equal data. -/
theorem Memory.eq_of_byteAt {m n : Memory} (hm : m.wf) (hn : n.wf)
    (h : ∀ a, m.byteAt a = n.byteAt a) : m = n := by
  have key : ∀ {m : Memory}, m.wf → ∀ p : Host.Cell,
      p ∈ m ↔ m.byteAt p.1 = p.2 ∧ p.2 ≠ constructionByte p.1 := by
    intro m hm p
    induction m with
    | nil => simp only [List.not_mem_nil, byteAt, false_iff]; rintro ⟨h1, h2⟩; exact h2 h1.symm
    | cons q rest ih =>
      obtain ⟨hq, hrest⟩ := List.pairwise_cons.mp hm.1
      have ih := ih ⟨hrest, fun r hr => hm.2 r (by simp [hr])⟩
      have hqb := (hm.2 q (by simp)).2
      by_cases hk : q.1 = p.1
      · have hnot : p ∉ rest := fun hp => absurd (hq p hp) (by omega)
        simp only [List.mem_cons, hnot, or_false, byteAt, hk, if_true]
        constructor
        · rintro rfl; exact ⟨rfl, hqb⟩
        · rintro ⟨h1, -⟩; exact (Prod.ext hk h1).symm
      · have hne : p ≠ q := fun e => hk (by rw [e])
        simp only [List.mem_cons, hne, false_or, byteAt, hk, if_false]
        exact ih
  have hperm : ∀ p, p ∈ m ↔ p ∈ n := fun p => by rw [key hm, key hn, h]
  have nodup : ∀ {m : Memory}, m.wf → m.Nodup := fun hm =>
    hm.1.imp (fun {a b} hab e => absurd hab (by rw [e]; omega))
  refine List.Perm.eq_of_pairwise (le := fun p q : Host.Cell => p.1 < q.1) ?_ hm.1 hn.1
    ((List.perm_ext_iff_of_nodup (nodup hm) (nodup hn)).mpr hperm)
  intro a b _ _ hab hba
  omega

end Sys2Proof.Machine
end

