-- ==== Sys2Proof/Laws/State.lean ====
section
/-! SUPPORT. One lemma per field per update, all true by `rfl`, so that no proof unfolds a record update. -/

namespace Sys2Proof.Machine

variable (s : State)

/-! ### memWrite -/

@[simp] theorem memWrite_mem (a : Nat) (b : Byte) : (memWrite s a b).mem = s.mem.store (memAddr a) b := rfl
@[simp] theorem memWrite_v (a : Nat) (b : Byte) : (memWrite s a b).v = s.v := rfl
@[simp] theorem memWrite_I (a : Nat) (b : Byte) : (memWrite s a b).I = s.I := rfl
@[simp] theorem memWrite_pc (a : Nat) (b : Byte) : (memWrite s a b).pc = s.pc := rfl
@[simp] theorem memWrite_stack (a : Nat) (b : Byte) : (memWrite s a b).stack = s.stack := rfl
@[simp] theorem memWrite_dt (a : Nat) (b : Byte) : (memWrite s a b).dt = s.dt := rfl
@[simp] theorem memWrite_st (a : Nat) (b : Byte) : (memWrite s a b).st = s.st := rfl
@[simp] theorem memWrite_fb (a : Nat) (b : Byte) : (memWrite s a b).fb = s.fb := rfl
@[simp] theorem memWrite_keys (a : Nat) (b : Byte) : (memWrite s a b).keys = s.keys := rfl
@[simp] theorem memWrite_seed (a : Nat) (b : Byte) : (memWrite s a b).seed = s.seed := rfl
@[simp] theorem memWrite_draws (a : Nat) (b : Byte) : (memWrite s a b).draws = s.draws := rfl
@[simp] theorem memWrite_fault (a : Nat) (b : Byte) : (memWrite s a b).fault = s.fault := rfl
@[simp] theorem memWrite_outcome (a : Nat) (b : Byte) : (memWrite s a b).outcome = s.outcome := rfl
@[simp] theorem memWrite_readReg (a : Nat) (b : Byte) (j : RegIdx) : readReg (memWrite s a b) j = readReg s j := rfl
@[simp] theorem memWrite_pixel (a : Nat) (b : Byte) (col : Fin 64) (row : Fin 32) : pixel (memWrite s a b) col row = pixel s col row := rfl
@[simp] theorem memWrite_keyPressed (a : Nat) (b : Byte) (q : Fin 16) : keyPressed (memWrite s a b) q = keyPressed s q := rfl

/-! ### writeReg -/

@[simp] theorem writeReg_mem (i : RegIdx) (b : Byte) : (writeReg s i b).mem = s.mem := rfl
@[simp] theorem writeReg_v (i : RegIdx) (b : Byte) : (writeReg s i b).v = s.v.set i b := rfl
@[simp] theorem writeReg_I (i : RegIdx) (b : Byte) : (writeReg s i b).I = s.I := rfl
@[simp] theorem writeReg_pc (i : RegIdx) (b : Byte) : (writeReg s i b).pc = s.pc := rfl
@[simp] theorem writeReg_stack (i : RegIdx) (b : Byte) : (writeReg s i b).stack = s.stack := rfl
@[simp] theorem writeReg_dt (i : RegIdx) (b : Byte) : (writeReg s i b).dt = s.dt := rfl
@[simp] theorem writeReg_st (i : RegIdx) (b : Byte) : (writeReg s i b).st = s.st := rfl
@[simp] theorem writeReg_fb (i : RegIdx) (b : Byte) : (writeReg s i b).fb = s.fb := rfl
@[simp] theorem writeReg_keys (i : RegIdx) (b : Byte) : (writeReg s i b).keys = s.keys := rfl
@[simp] theorem writeReg_seed (i : RegIdx) (b : Byte) : (writeReg s i b).seed = s.seed := rfl
@[simp] theorem writeReg_draws (i : RegIdx) (b : Byte) : (writeReg s i b).draws = s.draws := rfl
@[simp] theorem writeReg_fault (i : RegIdx) (b : Byte) : (writeReg s i b).fault = s.fault := rfl
@[simp] theorem writeReg_outcome (i : RegIdx) (b : Byte) : (writeReg s i b).outcome = s.outcome := rfl
@[simp] theorem writeReg_memRead (i : RegIdx) (b : Byte) (addr : Nat) : memRead (writeReg s i b) addr = memRead s addr := rfl
@[simp] theorem writeReg_pixel (i : RegIdx) (b : Byte) (col : Fin 64) (row : Fin 32) : pixel (writeReg s i b) col row = pixel s col row := rfl
@[simp] theorem writeReg_keyPressed (i : RegIdx) (b : Byte) (q : Fin 16) : keyPressed (writeReg s i b) q = keyPressed s q := rfl

/-! ### setI -/

@[simp] theorem setI_mem (w : Word) : (setI s w).mem = s.mem := rfl
@[simp] theorem setI_v (w : Word) : (setI s w).v = s.v := rfl
@[simp] theorem setI_I (w : Word) : (setI s w).I = w := rfl
@[simp] theorem setI_pc (w : Word) : (setI s w).pc = s.pc := rfl
@[simp] theorem setI_stack (w : Word) : (setI s w).stack = s.stack := rfl
@[simp] theorem setI_dt (w : Word) : (setI s w).dt = s.dt := rfl
@[simp] theorem setI_st (w : Word) : (setI s w).st = s.st := rfl
@[simp] theorem setI_fb (w : Word) : (setI s w).fb = s.fb := rfl
@[simp] theorem setI_keys (w : Word) : (setI s w).keys = s.keys := rfl
@[simp] theorem setI_seed (w : Word) : (setI s w).seed = s.seed := rfl
@[simp] theorem setI_draws (w : Word) : (setI s w).draws = s.draws := rfl
@[simp] theorem setI_fault (w : Word) : (setI s w).fault = s.fault := rfl
@[simp] theorem setI_outcome (w : Word) : (setI s w).outcome = s.outcome := rfl
@[simp] theorem setI_readReg (w : Word) (j : RegIdx) : readReg (setI s w) j = readReg s j := rfl
@[simp] theorem setI_memRead (w : Word) (addr : Nat) : memRead (setI s w) addr = memRead s addr := rfl
@[simp] theorem setI_pixel (w : Word) (col : Fin 64) (row : Fin 32) : pixel (setI s w) col row = pixel s col row := rfl
@[simp] theorem setI_keyPressed (w : Word) (q : Fin 16) : keyPressed (setI s w) q = keyPressed s q := rfl

/-! ### setPc -/

@[simp] theorem setPc_mem (w : Word) : (setPc s w).mem = s.mem := rfl
@[simp] theorem setPc_v (w : Word) : (setPc s w).v = s.v := rfl
@[simp] theorem setPc_I (w : Word) : (setPc s w).I = s.I := rfl
@[simp] theorem setPc_pc (w : Word) : (setPc s w).pc = w := rfl
@[simp] theorem setPc_stack (w : Word) : (setPc s w).stack = s.stack := rfl
@[simp] theorem setPc_dt (w : Word) : (setPc s w).dt = s.dt := rfl
@[simp] theorem setPc_st (w : Word) : (setPc s w).st = s.st := rfl
@[simp] theorem setPc_fb (w : Word) : (setPc s w).fb = s.fb := rfl
@[simp] theorem setPc_keys (w : Word) : (setPc s w).keys = s.keys := rfl
@[simp] theorem setPc_seed (w : Word) : (setPc s w).seed = s.seed := rfl
@[simp] theorem setPc_draws (w : Word) : (setPc s w).draws = s.draws := rfl
@[simp] theorem setPc_fault (w : Word) : (setPc s w).fault = s.fault := rfl
@[simp] theorem setPc_outcome (w : Word) : (setPc s w).outcome = s.outcome := rfl
@[simp] theorem setPc_readReg (w : Word) (j : RegIdx) : readReg (setPc s w) j = readReg s j := rfl
@[simp] theorem setPc_memRead (w : Word) (addr : Nat) : memRead (setPc s w) addr = memRead s addr := rfl
@[simp] theorem setPc_pixel (w : Word) (col : Fin 64) (row : Fin 32) : pixel (setPc s w) col row = pixel s col row := rfl
@[simp] theorem setPc_keyPressed (w : Word) (q : Fin 16) : keyPressed (setPc s w) q = keyPressed s q := rfl

/-! ### forward -/

@[simp] theorem forward_mem : (forward s).mem = s.mem := rfl
@[simp] theorem forward_v : (forward s).v = s.v := rfl
@[simp] theorem forward_I : (forward s).I = s.I := rfl
@[simp] theorem forward_pc : (forward s).pc = s.pc + 2 := rfl
@[simp] theorem forward_stack : (forward s).stack = s.stack := rfl
@[simp] theorem forward_dt : (forward s).dt = s.dt := rfl
@[simp] theorem forward_st : (forward s).st = s.st := rfl
@[simp] theorem forward_fb : (forward s).fb = s.fb := rfl
@[simp] theorem forward_keys : (forward s).keys = s.keys := rfl
@[simp] theorem forward_seed : (forward s).seed = s.seed := rfl
@[simp] theorem forward_draws : (forward s).draws = s.draws := rfl
@[simp] theorem forward_fault : (forward s).fault = s.fault := rfl
@[simp] theorem forward_outcome : (forward s).outcome = s.outcome := rfl
@[simp] theorem forward_readReg (j : RegIdx) : readReg (forward s) j = readReg s j := rfl
@[simp] theorem forward_memRead (addr : Nat) : memRead (forward s) addr = memRead s addr := rfl
@[simp] theorem forward_pixel (col : Fin 64) (row : Fin 32) : pixel (forward s) col row = pixel s col row := rfl
@[simp] theorem forward_keyPressed (q : Fin 16) : keyPressed (forward s) q = keyPressed s q := rfl

/-! ### rewind -/

@[simp] theorem rewind_mem : (rewind s).mem = s.mem := rfl
@[simp] theorem rewind_v : (rewind s).v = s.v := rfl
@[simp] theorem rewind_I : (rewind s).I = s.I := rfl
@[simp] theorem rewind_pc : (rewind s).pc = s.pc - 2 := rfl
@[simp] theorem rewind_stack : (rewind s).stack = s.stack := rfl
@[simp] theorem rewind_dt : (rewind s).dt = s.dt := rfl
@[simp] theorem rewind_st : (rewind s).st = s.st := rfl
@[simp] theorem rewind_fb : (rewind s).fb = s.fb := rfl
@[simp] theorem rewind_keys : (rewind s).keys = s.keys := rfl
@[simp] theorem rewind_seed : (rewind s).seed = s.seed := rfl
@[simp] theorem rewind_draws : (rewind s).draws = s.draws := rfl
@[simp] theorem rewind_fault : (rewind s).fault = s.fault := rfl
@[simp] theorem rewind_outcome : (rewind s).outcome = s.outcome := rfl
@[simp] theorem rewind_readReg (j : RegIdx) : readReg (rewind s) j = readReg s j := rfl
@[simp] theorem rewind_memRead (addr : Nat) : memRead (rewind s) addr = memRead s addr := rfl
@[simp] theorem rewind_pixel (col : Fin 64) (row : Fin 32) : pixel (rewind s) col row = pixel s col row := rfl
@[simp] theorem rewind_keyPressed (q : Fin 16) : keyPressed (rewind s) q = keyPressed s q := rfl

/-! ### push -/

@[simp] theorem push_mem (w : Word) : (push s w).mem = s.mem := rfl
@[simp] theorem push_v (w : Word) : (push s w).v = s.v := rfl
@[simp] theorem push_I (w : Word) : (push s w).I = s.I := rfl
@[simp] theorem push_pc (w : Word) : (push s w).pc = s.pc := rfl
@[simp] theorem push_stack (w : Word) : (push s w).stack = s.stack ++ [w] := rfl
@[simp] theorem push_dt (w : Word) : (push s w).dt = s.dt := rfl
@[simp] theorem push_st (w : Word) : (push s w).st = s.st := rfl
@[simp] theorem push_fb (w : Word) : (push s w).fb = s.fb := rfl
@[simp] theorem push_keys (w : Word) : (push s w).keys = s.keys := rfl
@[simp] theorem push_seed (w : Word) : (push s w).seed = s.seed := rfl
@[simp] theorem push_draws (w : Word) : (push s w).draws = s.draws := rfl
@[simp] theorem push_fault (w : Word) : (push s w).fault = s.fault := rfl
@[simp] theorem push_outcome (w : Word) : (push s w).outcome = s.outcome := rfl
@[simp] theorem push_readReg (w : Word) (j : RegIdx) : readReg (push s w) j = readReg s j := rfl
@[simp] theorem push_memRead (w : Word) (addr : Nat) : memRead (push s w) addr = memRead s addr := rfl
@[simp] theorem push_pixel (w : Word) (col : Fin 64) (row : Fin 32) : pixel (push s w) col row = pixel s col row := rfl
@[simp] theorem push_keyPressed (w : Word) (q : Fin 16) : keyPressed (push s w) q = keyPressed s q := rfl

/-! ### drawn -/

@[simp] theorem drawn_mem : ((randomByte s).2).mem = s.mem := rfl
@[simp] theorem drawn_v : ((randomByte s).2).v = s.v := rfl
@[simp] theorem drawn_I : ((randomByte s).2).I = s.I := rfl
@[simp] theorem drawn_pc : ((randomByte s).2).pc = s.pc := rfl
@[simp] theorem drawn_stack : ((randomByte s).2).stack = s.stack := rfl
@[simp] theorem drawn_dt : ((randomByte s).2).dt = s.dt := rfl
@[simp] theorem drawn_st : ((randomByte s).2).st = s.st := rfl
@[simp] theorem drawn_fb : ((randomByte s).2).fb = s.fb := rfl
@[simp] theorem drawn_keys : ((randomByte s).2).keys = s.keys := rfl
@[simp] theorem drawn_seed : ((randomByte s).2).seed = s.seed := rfl
@[simp] theorem drawn_draws : ((randomByte s).2).draws = s.draws + 1 := rfl
@[simp] theorem drawn_fault : ((randomByte s).2).fault = s.fault := rfl
@[simp] theorem drawn_outcome : ((randomByte s).2).outcome = s.outcome := rfl
@[simp] theorem drawn_readReg (j : RegIdx) : readReg ((randomByte s).2) j = readReg s j := rfl
@[simp] theorem drawn_memRead (addr : Nat) : memRead ((randomByte s).2) addr = memRead s addr := rfl
@[simp] theorem drawn_pixel (col : Fin 64) (row : Fin 32) : pixel ((randomByte s).2) col row = pixel s col row := rfl
@[simp] theorem drawn_keyPressed (q : Fin 16) : keyPressed ((randomByte s).2) q = keyPressed s q := rfl

/-! ### setDT -/

@[simp] theorem setDT_mem (b : Byte) : (setDT s b).mem = s.mem := rfl
@[simp] theorem setDT_v (b : Byte) : (setDT s b).v = s.v := rfl
@[simp] theorem setDT_I (b : Byte) : (setDT s b).I = s.I := rfl
@[simp] theorem setDT_pc (b : Byte) : (setDT s b).pc = s.pc := rfl
@[simp] theorem setDT_stack (b : Byte) : (setDT s b).stack = s.stack := rfl
@[simp] theorem setDT_dt (b : Byte) : (setDT s b).dt = b := rfl
@[simp] theorem setDT_st (b : Byte) : (setDT s b).st = s.st := rfl
@[simp] theorem setDT_fb (b : Byte) : (setDT s b).fb = s.fb := rfl
@[simp] theorem setDT_keys (b : Byte) : (setDT s b).keys = s.keys := rfl
@[simp] theorem setDT_seed (b : Byte) : (setDT s b).seed = s.seed := rfl
@[simp] theorem setDT_draws (b : Byte) : (setDT s b).draws = s.draws := rfl
@[simp] theorem setDT_fault (b : Byte) : (setDT s b).fault = s.fault := rfl
@[simp] theorem setDT_outcome (b : Byte) : (setDT s b).outcome = s.outcome := rfl
@[simp] theorem setDT_readReg (b : Byte) (j : RegIdx) : readReg (setDT s b) j = readReg s j := rfl
@[simp] theorem setDT_memRead (b : Byte) (addr : Nat) : memRead (setDT s b) addr = memRead s addr := rfl
@[simp] theorem setDT_pixel (b : Byte) (col : Fin 64) (row : Fin 32) : pixel (setDT s b) col row = pixel s col row := rfl
@[simp] theorem setDT_keyPressed (b : Byte) (q : Fin 16) : keyPressed (setDT s b) q = keyPressed s q := rfl

/-! ### setST -/

@[simp] theorem setST_mem (b : Byte) : (setST s b).mem = s.mem := rfl
@[simp] theorem setST_v (b : Byte) : (setST s b).v = s.v := rfl
@[simp] theorem setST_I (b : Byte) : (setST s b).I = s.I := rfl
@[simp] theorem setST_pc (b : Byte) : (setST s b).pc = s.pc := rfl
@[simp] theorem setST_stack (b : Byte) : (setST s b).stack = s.stack := rfl
@[simp] theorem setST_dt (b : Byte) : (setST s b).dt = s.dt := rfl
@[simp] theorem setST_st (b : Byte) : (setST s b).st = b := rfl
@[simp] theorem setST_fb (b : Byte) : (setST s b).fb = s.fb := rfl
@[simp] theorem setST_keys (b : Byte) : (setST s b).keys = s.keys := rfl
@[simp] theorem setST_seed (b : Byte) : (setST s b).seed = s.seed := rfl
@[simp] theorem setST_draws (b : Byte) : (setST s b).draws = s.draws := rfl
@[simp] theorem setST_fault (b : Byte) : (setST s b).fault = s.fault := rfl
@[simp] theorem setST_outcome (b : Byte) : (setST s b).outcome = s.outcome := rfl
@[simp] theorem setST_readReg (b : Byte) (j : RegIdx) : readReg (setST s b) j = readReg s j := rfl
@[simp] theorem setST_memRead (b : Byte) (addr : Nat) : memRead (setST s b) addr = memRead s addr := rfl
@[simp] theorem setST_pixel (b : Byte) (col : Fin 64) (row : Fin 32) : pixel (setST s b) col row = pixel s col row := rfl
@[simp] theorem setST_keyPressed (b : Byte) (q : Fin 16) : keyPressed (setST s b) q = keyPressed s q := rfl

/-! ### clearFb -/

@[simp] theorem clearFb_mem : (clearFb s).mem = s.mem := rfl
@[simp] theorem clearFb_v : (clearFb s).v = s.v := rfl
@[simp] theorem clearFb_I : (clearFb s).I = s.I := rfl
@[simp] theorem clearFb_pc : (clearFb s).pc = s.pc := rfl
@[simp] theorem clearFb_stack : (clearFb s).stack = s.stack := rfl
@[simp] theorem clearFb_dt : (clearFb s).dt = s.dt := rfl
@[simp] theorem clearFb_st : (clearFb s).st = s.st := rfl
@[simp] theorem clearFb_fb : (clearFb s).fb = Vector.replicate 64 (Vector.replicate 32 false) := rfl
@[simp] theorem clearFb_keys : (clearFb s).keys = s.keys := rfl
@[simp] theorem clearFb_seed : (clearFb s).seed = s.seed := rfl
@[simp] theorem clearFb_draws : (clearFb s).draws = s.draws := rfl
@[simp] theorem clearFb_fault : (clearFb s).fault = s.fault := rfl
@[simp] theorem clearFb_outcome : (clearFb s).outcome = s.outcome := rfl
@[simp] theorem clearFb_readReg (j : RegIdx) : readReg (clearFb s) j = readReg s j := rfl
@[simp] theorem clearFb_memRead (addr : Nat) : memRead (clearFb s) addr = memRead s addr := rfl
@[simp] theorem clearFb_keyPressed (q : Fin 16) : keyPressed (clearFb s) q = keyPressed s q := rfl

/-! ### report -/

@[simp] theorem report_mem (o : StepOutcome) : (report o s).mem = s.mem := rfl
@[simp] theorem report_v (o : StepOutcome) : (report o s).v = s.v := rfl
@[simp] theorem report_I (o : StepOutcome) : (report o s).I = s.I := rfl
@[simp] theorem report_pc (o : StepOutcome) : (report o s).pc = s.pc := rfl
@[simp] theorem report_stack (o : StepOutcome) : (report o s).stack = s.stack := rfl
@[simp] theorem report_dt (o : StepOutcome) : (report o s).dt = s.dt := rfl
@[simp] theorem report_st (o : StepOutcome) : (report o s).st = s.st := rfl
@[simp] theorem report_fb (o : StepOutcome) : (report o s).fb = s.fb := rfl
@[simp] theorem report_keys (o : StepOutcome) : (report o s).keys = s.keys := rfl
@[simp] theorem report_seed (o : StepOutcome) : (report o s).seed = s.seed := rfl
@[simp] theorem report_draws (o : StepOutcome) : (report o s).draws = s.draws := rfl
@[simp] theorem report_fault (o : StepOutcome) : (report o s).fault = s.fault := rfl
@[simp] theorem report_outcome (o : StepOutcome) : (report o s).outcome = o := rfl
@[simp] theorem report_readReg (o : StepOutcome) (j : RegIdx) : readReg (report o s) j = readReg s j := rfl
@[simp] theorem report_memRead (o : StepOutcome) (addr : Nat) : memRead (report o s) addr = memRead s addr := rfl
@[simp] theorem report_pixel (o : StepOutcome) (col : Fin 64) (row : Fin 32) : pixel (report o s) col row = pixel s col row := rfl
@[simp] theorem report_keyPressed (o : StepOutcome) (q : Fin 16) : keyPressed (report o s) q = keyPressed s q := rfl

/-! ### raiseUnder -/

@[simp] theorem raiseUnder_mem (p : Config.UnknownOpcodePolicy) (c : StepCondition) : (raiseUnder p c s).mem = s.mem := rfl
@[simp] theorem raiseUnder_v (p : Config.UnknownOpcodePolicy) (c : StepCondition) : (raiseUnder p c s).v = s.v := rfl
@[simp] theorem raiseUnder_I (p : Config.UnknownOpcodePolicy) (c : StepCondition) : (raiseUnder p c s).I = s.I := rfl
@[simp] theorem raiseUnder_pc (p : Config.UnknownOpcodePolicy) (c : StepCondition) : (raiseUnder p c s).pc = s.pc := rfl
@[simp] theorem raiseUnder_stack (p : Config.UnknownOpcodePolicy) (c : StepCondition) : (raiseUnder p c s).stack = s.stack := rfl
@[simp] theorem raiseUnder_dt (p : Config.UnknownOpcodePolicy) (c : StepCondition) : (raiseUnder p c s).dt = s.dt := rfl
@[simp] theorem raiseUnder_st (p : Config.UnknownOpcodePolicy) (c : StepCondition) : (raiseUnder p c s).st = s.st := rfl
@[simp] theorem raiseUnder_fb (p : Config.UnknownOpcodePolicy) (c : StepCondition) : (raiseUnder p c s).fb = s.fb := rfl
@[simp] theorem raiseUnder_keys (p : Config.UnknownOpcodePolicy) (c : StepCondition) : (raiseUnder p c s).keys = s.keys := rfl
@[simp] theorem raiseUnder_seed (p : Config.UnknownOpcodePolicy) (c : StepCondition) : (raiseUnder p c s).seed = s.seed := rfl
@[simp] theorem raiseUnder_draws (p : Config.UnknownOpcodePolicy) (c : StepCondition) : (raiseUnder p c s).draws = s.draws := rfl
@[simp] theorem raiseUnder_fault (p : Config.UnknownOpcodePolicy) (c : StepCondition) : (raiseUnder p c s).fault = if haltsUnder p c then some c else s.fault := rfl
@[simp] theorem raiseUnder_outcome (p : Config.UnknownOpcodePolicy) (c : StepCondition) : (raiseUnder p c s).outcome = .raised c := rfl
@[simp] theorem raiseUnder_readReg (p : Config.UnknownOpcodePolicy) (c : StepCondition) (j : RegIdx) : readReg (raiseUnder p c s) j = readReg s j := rfl
@[simp] theorem raiseUnder_memRead (p : Config.UnknownOpcodePolicy) (c : StepCondition) (addr : Nat) : memRead (raiseUnder p c s) addr = memRead s addr := rfl
@[simp] theorem raiseUnder_pixel (p : Config.UnknownOpcodePolicy) (c : StepCondition) (col : Fin 64) (row : Fin 32) : pixel (raiseUnder p c s) col row = pixel s col row := rfl
@[simp] theorem raiseUnder_keyPressed (p : Config.UnknownOpcodePolicy) (c : StepCondition) (q : Fin 16) : keyPressed (raiseUnder p c s) q = keyPressed s q := rfl

/-! ### setKey -/

@[simp] theorem setKey_mem (k : Fin 16) (b : Bool) : (setKey s k b).mem = s.mem := rfl
@[simp] theorem setKey_v (k : Fin 16) (b : Bool) : (setKey s k b).v = s.v := rfl
@[simp] theorem setKey_I (k : Fin 16) (b : Bool) : (setKey s k b).I = s.I := rfl
@[simp] theorem setKey_pc (k : Fin 16) (b : Bool) : (setKey s k b).pc = s.pc := rfl
@[simp] theorem setKey_stack (k : Fin 16) (b : Bool) : (setKey s k b).stack = s.stack := rfl
@[simp] theorem setKey_dt (k : Fin 16) (b : Bool) : (setKey s k b).dt = s.dt := rfl
@[simp] theorem setKey_st (k : Fin 16) (b : Bool) : (setKey s k b).st = s.st := rfl
@[simp] theorem setKey_fb (k : Fin 16) (b : Bool) : (setKey s k b).fb = s.fb := rfl
@[simp] theorem setKey_keys (k : Fin 16) (b : Bool) : (setKey s k b).keys = s.keys.set k b := rfl
@[simp] theorem setKey_seed (k : Fin 16) (b : Bool) : (setKey s k b).seed = s.seed := rfl
@[simp] theorem setKey_draws (k : Fin 16) (b : Bool) : (setKey s k b).draws = s.draws := rfl
@[simp] theorem setKey_fault (k : Fin 16) (b : Bool) : (setKey s k b).fault = s.fault := rfl
@[simp] theorem setKey_outcome (k : Fin 16) (b : Bool) : (setKey s k b).outcome = s.outcome := rfl
@[simp] theorem setKey_readReg (k : Fin 16) (b : Bool) (j : RegIdx) : readReg (setKey s k b) j = readReg s j := rfl
@[simp] theorem setKey_memRead (k : Fin 16) (b : Bool) (addr : Nat) : memRead (setKey s k b) addr = memRead s addr := rfl
@[simp] theorem setKey_pixel (k : Fin 16) (b : Bool) (col : Fin 64) (row : Fin 32) : pixel (setKey s k b) col row = pixel s col row := rfl

/-! ### timerTick -/

@[simp] theorem timerTick_mem : (timerTick s).mem = s.mem := rfl
@[simp] theorem timerTick_v : (timerTick s).v = s.v := rfl
@[simp] theorem timerTick_I : (timerTick s).I = s.I := rfl
@[simp] theorem timerTick_pc : (timerTick s).pc = s.pc := rfl
@[simp] theorem timerTick_stack : (timerTick s).stack = s.stack := rfl
@[simp] theorem timerTick_dt : (timerTick s).dt = tickTimer s.dt := rfl
@[simp] theorem timerTick_st : (timerTick s).st = tickTimer s.st := rfl
@[simp] theorem timerTick_fb : (timerTick s).fb = s.fb := rfl
@[simp] theorem timerTick_keys : (timerTick s).keys = s.keys := rfl
@[simp] theorem timerTick_seed : (timerTick s).seed = s.seed := rfl
@[simp] theorem timerTick_draws : (timerTick s).draws = s.draws := rfl
@[simp] theorem timerTick_fault : (timerTick s).fault = s.fault := rfl
@[simp] theorem timerTick_outcome : (timerTick s).outcome = s.outcome := rfl
@[simp] theorem timerTick_readReg (j : RegIdx) : readReg (timerTick s) j = readReg s j := rfl
@[simp] theorem timerTick_memRead (addr : Nat) : memRead (timerTick s) addr = memRead s addr := rfl
@[simp] theorem timerTick_pixel (col : Fin 64) (row : Fin 32) : pixel (timerTick s) col row = pixel s col row := rfl
@[simp] theorem timerTick_keyPressed (q : Fin 16) : keyPressed (timerTick s) q = keyPressed s q := rfl

/-! ### Names that stand for the operations above -/

@[simp] theorem advance_eq_forward : advance s = forward s := rfl
@[simp] theorem skip_eq_forward : skip s = forward s := rfl
@[simp] theorem randomByte_fst : (randomByte s).1 = Config.randomByte s.seed s.draws := rfl
@[simp] theorem complete_eq_next : complete s = .next (report .ok s) := rfl
@[simp] theorem waitForKey_eq_next : waitForKey s = .next (report .keyWait s) := rfl
@[simp] theorem stayHalted_eq_next : stayHalted s = .next (report .halted s) := rfl
@[simp] theorem raise_eq_next (c : StepCondition) :
    raise c s = .next (raiseUnder unknownOpcodePolicy c s) := rfl

/-- Two states with equal fields are equal, stated for the field-by-field proofs of frames. -/
theorem State.eq_of_fields {s t : State} (hmem : t.mem = s.mem) (hv : t.v = s.v) (hI : t.I = s.I)
    (hpc : t.pc = s.pc) (hstack : t.stack = s.stack) (hdt : t.dt = s.dt) (hst : t.st = s.st)
    (hfb : t.fb = s.fb) (hkeys : t.keys = s.keys) (hseed : t.seed = s.seed)
    (hdraws : t.draws = s.draws) (hfault : t.fault = s.fault) (hout : t.outcome = s.outcome) :
    t = s := by
  cases s; cases t; simp_all

end Sys2Proof.Machine
end

