-- ==== Sys2Proof/Laws/Ops.lean ====
section
/-! SUPPORT. What each shared operation does, once, for the proofs to cite. -/

namespace Sys2Proof.Machine

/-! ### Registers (R22, R137) -/

theorem readReg_writeReg (s : State) (i j : RegIdx) (b : Byte) :
    readReg (writeReg s i b) j = if j = i then b else readReg s j := by
  simp only [readReg, writeReg, Vector.get_eq_getElem, Vector.getElem_set, Fin.ext_iff, eq_comm]

@[simp] theorem readReg_writeReg_self (s : State) (i : RegIdx) (b : Byte) :
    readReg (writeReg s i b) i = b := by simp [readReg_writeReg]

theorem readReg_writeReg_of_ne (s : State) {i j : RegIdx} (b : Byte) (h : j ≠ i) :
    readReg (writeReg s i b) j = readReg s j := by simp [readReg_writeReg, h]

/-- Writing a register changes nothing but the registers. -/
theorem writeReg_frame (s : State) (i : RegIdx) (b : Byte) :
    writeReg s i b = { s with v := (writeReg s i b).v } := rfl

theorem readReg_writeResultAndFlag (s : State) (x j : RegIdx) (r : Byte) (f : Bool) :
    readReg (writeResultAndFlag s x r f) j =
      if j = Config.flagReg then flagByte f else if j = x then r else readReg s j := by
  simp only [writeResultAndFlag, setFlag, readReg_writeReg]

theorem writeResultAndFlag_frame (s : State) (x : RegIdx) (r : Byte) (f : Bool) :
    writeResultAndFlag s x r f = { s with v := (writeResultAndFlag s x r f).v } := rfl

/-- Two register files that read alike are equal. -/
theorem regs_eq_of_readReg {s t : State} (h : ∀ j, readReg t j = readReg s j) : t.v = s.v := by
  apply Vector.ext
  intro i hi
  exact h ⟨i, hi⟩

/-! ### Call stack (R101, R103) -/

theorem pop_eq_none {s : State} : pop s = none ↔ s.stack = [] := by
  rw [← List.getLast?_eq_none_iff]
  unfold pop
  split <;> simp_all

theorem pop_of_stack {s : State} {rest : List Word} {w : Word} (h : s.stack = rest ++ [w]) :
    pop s = some (w, { s with stack := rest }) := by
  simp [pop, h]

/-- What a pop answers: the top entry, and the state without it. -/
theorem pop_eq_some {s s' : State} {w : Word} (h : pop s = some (w, s')) :
    s.stack = s'.stack ++ [w] ∧ s' = { s with stack := s'.stack } := by
  rcases List.eq_nil_or_concat s.stack with h' | ⟨rest, u, h'⟩
  · rw [pop_eq_none.mpr h'] at h; cases h
  · rw [List.concat_eq_append] at h'
    rw [pop_of_stack h'] at h
    cases h
    exact ⟨h', rfl⟩

/-! ### The loops of Fx55 and Fx65 (R165, R166) -/

@[simp] theorem mem_regsUpTo {x i : RegIdx} : i ∈ regsUpTo x ↔ i ≤ x := by simp [regsUpTo]

theorem regsUpTo_nodup (x : RegIdx) : (regsUpTo x).Nodup := (List.nodup_finRange 16).filter _

/-- Two of at most 16 consecutive addresses reach the same cell only if they are the same one. -/
theorem memAddr_indexed_inj {s : State} {i j : RegIdx}
    (h : memAddr (indexedAddr s i.val) = memAddr (indexedAddr s j.val)) : i = j := by
  simp only [memAddr, indexedAddr, Config.memSize] at h
  exact Fin.ext (by omega)

@[simp] theorem memWrite_indexedAddr (s : State) (a : Nat) (b : Byte) (i : Nat) :
    indexedAddr (memWrite s a b) i = indexedAddr s i := rfl

@[simp] theorem writeReg_indexedAddr (s : State) (i : RegIdx) (b : Byte) (k : Nat) :
    indexedAddr (writeReg s i b) k = indexedAddr s k := rfl

/-- The stores of Fx55 change memory alone. -/
theorem foldl_storeReg_frame (l : List RegIdx) (s : State) :
    l.foldl storeReg s = { s with mem := (l.foldl storeReg s).mem } := by
  induction l generalizing s with
  | nil => rfl
  | cons i rest ih =>
    rw [List.foldl_cons, ih]
    rfl

/-- A byte outside the stored ones keeps its value. -/
theorem memRead_foldl_storeReg_of_ne (l : List RegIdx) (s : State) (a : Nat)
    (h : ∀ i ∈ l, memAddr a ≠ memAddr (indexedAddr s i.val)) :
    memRead (l.foldl storeReg s) a = memRead s a := by
  induction l generalizing s with
  | nil => rfl
  | cons i rest ih =>
    rw [List.foldl_cons, ih (storeReg s i) (fun j hj => h j (by simp [hj]))]
    rw [storeReg, memRead_memWrite, if_neg (h i (by simp))]

/-- The byte at `I + i` becomes V[i], for every register of the list. -/
theorem memRead_foldl_storeReg_of_mem (l : List RegIdx) (hl : l.Nodup) (s : State) {i : RegIdx}
    (hi : i ∈ l) (a : Nat) (ha : memAddr a = memAddr (indexedAddr s i.val)) :
    memRead (l.foldl storeReg s) a = readReg s i := by
  induction l generalizing s with
  | nil => cases hi
  | cons k rest ih =>
    obtain ⟨hk, hrest⟩ := List.nodup_cons.mp hl
    rw [List.foldl_cons]
    rcases List.mem_cons.mp hi with rfl | hi
    · rw [memRead_foldl_storeReg_of_ne, storeReg, memRead_memWrite, if_pos ha]
      intro j hj e
      exact hk (memAddr_indexed_inj (ha.symm.trans e) ▸ hj)
    · exact ih hrest (storeReg s k) hi ha

/-- The loads of Fx65 change the registers alone. -/
theorem foldl_loadReg_frame (l : List RegIdx) (s : State) :
    l.foldl loadReg s = { s with v := (l.foldl loadReg s).v } := by
  induction l generalizing s with
  | nil => rfl
  | cons i rest ih =>
    rw [List.foldl_cons, ih]
    rfl

/-- Every register of the list receives the byte at `I` plus its index; the others keep their values. -/
theorem readReg_foldl_loadReg (l : List RegIdx) (s : State) (j : RegIdx) :
    readReg (l.foldl loadReg s) j =
      if j ∈ l then memRead s (indexedAddr s j.val) else readReg s j := by
  induction l generalizing s with
  | nil => simp
  | cons k rest ih =>
    rw [List.foldl_cons, ih]
    by_cases hj : j ∈ rest
    · simp [hj, loadReg]
    · simp only [hj, if_false, loadReg, readReg_writeReg, List.mem_cons, or_false]
      split <;> simp_all

/-! ### Framebuffer (R34, R181) -/

theorem fbCell_fbToggle (fb : Vector (Vector Bool 32) 64) (c c' : Fin 64) (r r' : Fin 32) :
    fbCell (fbToggle fb c r) c' r' = (fbCell fb c' r' ^^ decide ((c', r') = (c, r))) := by
  simp only [fbCell, fbToggle, Vector.get_eq_getElem, Vector.getElem_set, Prod.mk.injEq,
    Fin.ext_iff]
  by_cases hc : c.val = c'.val
  · by_cases hr : r.val = r'.val
    · simp [hc, hr]
    · simp [hc, hr, Ne.symm hr]
  · simp [hc, Ne.symm hc]

/-- Framebuffers that show the same cells are equal. -/
theorem fb_ext {a b : Vector (Vector Bool 32) 64} (h : ∀ c r, fbCell a c r = fbCell b c r) :
    a = b := by
  apply Vector.ext
  intro i hi
  apply Vector.ext
  intro j hj
  exact h ⟨i, hi⟩ ⟨j, hj⟩

@[simp] theorem fbCell_clear (c : Fin 64) (r : Fin 32) :
    fbCell (Vector.replicate 64 (Vector.replicate 32 false)) c r = false := by
  simp [fbCell, Vector.get_eq_getElem]

theorem foldl_plot_fst (l : List (Fin 64 × Fin 32)) (hl : l.Nodup)
    (acc : Vector (Vector Bool 32) 64 × Bool) (c : Fin 64) (r : Fin 32) :
    fbCell (l.foldl plot acc).1 c r = (fbCell acc.1 c r ^^ decide ((c, r) ∈ l)) := by
  induction l generalizing acc with
  | nil => simp
  | cons p rest ih =>
    obtain ⟨hp, hrest⟩ := List.nodup_cons.mp hl
    rw [List.foldl_cons, ih hrest, plot, fbCell_fbToggle]
    by_cases h : (c, r) = p
    · subst h; simp [hp]
    · simp [h, List.mem_cons]

theorem foldl_plot_snd (l : List (Fin 64 × Fin 32)) (hl : l.Nodup)
    (acc : Vector (Vector Bool 32) 64 × Bool) :
    (l.foldl plot acc).2 = (acc.2 || l.any (fun p => fbCell acc.1 p.1 p.2)) := by
  induction l generalizing acc with
  | nil => simp
  | cons p rest ih =>
    obtain ⟨hp, hrest⟩ := List.nodup_cons.mp hl
    rw [List.foldl_cons, ih hrest, plot, List.any_cons, Bool.or_assoc]
    congr 2
    rw [Bool.eq_iff_iff, List.any_eq_true, List.any_eq_true]
    refine exists_congr fun q => and_congr_right fun hq => ?_
    have hne : (q.1, q.2) ≠ (p.1, p.2) := fun e => hp (show p ∈ rest from (show q = p from e) ▸ hq)
    rw [fbCell_fbToggle]
    simp [hne]

/-- Drawing distinct cells toggles exactly those. -/
theorem fbCell_plotAll (fb : Vector (Vector Bool 32) 64) (l : List (Fin 64 × Fin 32))
    (hl : l.Nodup) (c : Fin 64) (r : Fin 32) :
    fbCell (plotAll fb l).1 c r = (fbCell fb c r ^^ decide ((c, r) ∈ l)) :=
  foldl_plot_fst l hl (fb, false) c r

/-- The collision flag of distinct cells: whether one of them was on before the draw. -/
theorem plotAll_collision (fb : Vector (Vector Bool 32) 64) (l : List (Fin 64 × Fin 32))
    (hl : l.Nodup) : (plotAll fb l).2 = l.any (fun p => fbCell fb p.1 p.2) := by
  simp [plotAll, foldl_plot_snd l hl]

theorem mem_spriteCells {s : State} {cx cy : Byte} {n : Nat} {p : Fin 64 × Fin 32} :
    p ∈ spriteCells s cx cy n ↔
      ∃ row, row < n ∧ ∃ col, col < 8 ∧ spriteBit s row col = true ∧
        p = (wrapCol cx col, wrapRow cy row) := by
  simp only [spriteCells, spriteRow, List.mem_flatMap, List.mem_range, List.mem_map,
    List.mem_filter, eq_comm (a := p), and_assoc]

theorem wrapCol_inj {cx : Byte} {i j : Nat} (hi : i < 8) (hj : j < 8)
    (h : wrapCol cx i = wrapCol cx j) : i = j := by
  simp only [wrapCol, Fin.ext_iff, Fin.ofNat] at h
  omega

theorem wrapRow_inj {cy : Byte} {i j : Nat} (hi : i < 16) (hj : j < 16)
    (h : wrapRow cy i = wrapRow cy j) : i = j := by
  simp only [wrapRow, Fin.ext_iff, Fin.ofNat] at h
  omega

/-- "Within one Dxyn each cell is toggled at most once" (R181). -/
theorem spriteCells_nodup (s : State) (cx cy : Byte) {n : Nat} (hn : n ≤ 16) :
    (spriteCells s cx cy n).Nodup := by
  rw [spriteCells, List.nodup_flatMap]
  refine ⟨fun row _ => ?_, ?_⟩
  · refine List.Nodup.map_on ?_ (List.nodup_range.filter _)
    intro i hi j hj e
    simp only [List.mem_filter, List.mem_range] at hi hj
    exact wrapCol_inj hi.1 hj.1 (Prod.mk.inj e).1
  · refine List.Pairwise.imp_of_mem ?_ List.nodup_range
    intro i j hi hj hij
    rw [Function.onFun, List.disjoint_left]
    simp only [List.mem_range] at hi hj
    rintro p hp hq
    simp only [spriteRow, List.mem_map] at hp hq
    obtain ⟨_, _, rfl⟩ := hp
    obtain ⟨_, _, e⟩ := hq
    exact hij (wrapRow_inj (by omega) (by omega) (Prod.mk.inj e).2).symm

/-! ### Keypad (R203) -/

/-- The lowest pressed key is pressed, and no lower one is. -/
theorem lowestPressed_eq_some {s : State} {k : Fin 16} :
    lowestPressed s = some k ↔ keyPressed s k = true ∧ ∀ j < k, keyPressed s j = false := by
  unfold lowestPressed
  rw [List.find?_eq_some_iff_getElem]
  simp only [List.getElem_finRange, List.length_finRange]
  constructor
  · rintro ⟨hk, i, hi, rfl, hlt⟩
    refine ⟨hk, fun j hj => ?_⟩
    have := hlt j.val (by simpa [Fin.lt_def] using hj)
    simpa using this
  · rintro ⟨hk, hlt⟩
    refine ⟨hk, k.val, k.isLt, by simp, fun j hj => ?_⟩
    simpa using hlt ⟨j, by omega⟩ (by simpa [Fin.lt_def] using hj)

theorem lowestPressed_eq_none {s : State} :
    lowestPressed s = none ↔ ∀ k, keyPressed s k = false := by
  simp [lowestPressed, List.find?_eq_none]

/-! ### Raising a condition (R221, R229, R230) -/

/-- A condition changes `fault` and the reported outcome, nothing else. -/
theorem raiseUnder_frame (p : Config.UnknownOpcodePolicy) (c : StepCondition) (s : State) :
    raiseUnder p c s =
      { s with fault := if haltsUnder p c then some c else s.fault, outcome := .raised c } := rfl

end Sys2Proof.Machine
end

