-- ==== Sys2Proof/Laws/PerInstr.lean ====
section
/-! SUPPORT. Families of statements about instructions as syntax, one lemma per constructor. -/

namespace Sys2Proof.Laws.EncodesRow

/-- The word of an instruction matches the instruction's own row, and that row is one of the opcode
table's (30_encoding.md R76). -/
def Statement (i : Instr) : Prop := i.row ∈ opcodeTable ∧ i.row.accepts (encode i) = true

theorem cls : Statement .cls :=
  ⟨by simp [opcodeTable, Instr.row], by decide⟩
theorem ret : Statement .ret :=
  ⟨by simp [opcodeTable, Instr.row], by decide⟩
theorem jp (nnn : Addr12) : Statement (.jp nnn) :=
  ⟨by simp [opcodeTable, Instr.row], by simp [OpcodeRow.accepts, Instr.row, encode, and_F000]; rfl⟩
theorem call (nnn : Addr12) : Statement (.call nnn) :=
  ⟨by simp [opcodeTable, Instr.row], by simp [OpcodeRow.accepts, Instr.row, encode, and_F000]; rfl⟩
theorem seImm (x : RegIdx) (kk : Byte) : Statement (.seImm x kk) :=
  ⟨by simp [opcodeTable, Instr.row], by simp [OpcodeRow.accepts, Instr.row, encode, and_F000]; rfl⟩
theorem sneImm (x : RegIdx) (kk : Byte) : Statement (.sneImm x kk) :=
  ⟨by simp [opcodeTable, Instr.row], by simp [OpcodeRow.accepts, Instr.row, encode, and_F000]; rfl⟩
theorem seReg (x : RegIdx) (y : RegIdx) : Statement (.seReg x y) :=
  ⟨by simp [opcodeTable, Instr.row], by simp [OpcodeRow.accepts, Instr.row, encode, and_F00F]; rfl⟩
theorem sneReg (x : RegIdx) (y : RegIdx) : Statement (.sneReg x y) :=
  ⟨by simp [opcodeTable, Instr.row], by simp [OpcodeRow.accepts, Instr.row, encode, and_F00F]; rfl⟩
theorem ldImm (x : RegIdx) (kk : Byte) : Statement (.ldImm x kk) :=
  ⟨by simp [opcodeTable, Instr.row], by simp [OpcodeRow.accepts, Instr.row, encode, and_F000]; rfl⟩
theorem addImm (x : RegIdx) (kk : Byte) : Statement (.addImm x kk) :=
  ⟨by simp [opcodeTable, Instr.row], by simp [OpcodeRow.accepts, Instr.row, encode, and_F000]; rfl⟩
theorem ldReg (x : RegIdx) (y : RegIdx) : Statement (.ldReg x y) :=
  ⟨by simp [opcodeTable, Instr.row], by simp [OpcodeRow.accepts, Instr.row, encode, and_F00F]; rfl⟩
theorem orReg (x : RegIdx) (y : RegIdx) : Statement (.orReg x y) :=
  ⟨by simp [opcodeTable, Instr.row], by simp [OpcodeRow.accepts, Instr.row, encode, and_F00F]; rfl⟩
theorem andReg (x : RegIdx) (y : RegIdx) : Statement (.andReg x y) :=
  ⟨by simp [opcodeTable, Instr.row], by simp [OpcodeRow.accepts, Instr.row, encode, and_F00F]; rfl⟩
theorem xorReg (x : RegIdx) (y : RegIdx) : Statement (.xorReg x y) :=
  ⟨by simp [opcodeTable, Instr.row], by simp [OpcodeRow.accepts, Instr.row, encode, and_F00F]; rfl⟩
theorem addReg (x : RegIdx) (y : RegIdx) : Statement (.addReg x y) :=
  ⟨by simp [opcodeTable, Instr.row], by simp [OpcodeRow.accepts, Instr.row, encode, and_F00F]; rfl⟩
theorem sub (x : RegIdx) (y : RegIdx) : Statement (.sub x y) :=
  ⟨by simp [opcodeTable, Instr.row], by simp [OpcodeRow.accepts, Instr.row, encode, and_F00F]; rfl⟩
theorem subn (x : RegIdx) (y : RegIdx) : Statement (.subn x y) :=
  ⟨by simp [opcodeTable, Instr.row], by simp [OpcodeRow.accepts, Instr.row, encode, and_F00F]; rfl⟩
theorem shr (x : RegIdx) (y : RegIdx) : Statement (.shr x y) :=
  ⟨by simp [opcodeTable, Instr.row], by simp [OpcodeRow.accepts, Instr.row, encode, and_F00F]; rfl⟩
theorem shl (x : RegIdx) (y : RegIdx) : Statement (.shl x y) :=
  ⟨by simp [opcodeTable, Instr.row], by simp [OpcodeRow.accepts, Instr.row, encode, and_F00F]; rfl⟩
theorem ldI (nnn : Addr12) : Statement (.ldI nnn) :=
  ⟨by simp [opcodeTable, Instr.row], by simp [OpcodeRow.accepts, Instr.row, encode, and_F000]; rfl⟩
theorem jpV0 (nnn : Addr12) : Statement (.jpV0 nnn) :=
  ⟨by simp [opcodeTable, Instr.row], by simp [OpcodeRow.accepts, Instr.row, encode, and_F000]; rfl⟩
theorem rnd (x : RegIdx) (kk : Byte) : Statement (.rnd x kk) :=
  ⟨by simp [opcodeTable, Instr.row], by simp [OpcodeRow.accepts, Instr.row, encode, and_F000]; rfl⟩
theorem drw (x : RegIdx) (y : RegIdx) (n : Fin 16) : Statement (.drw x y n) :=
  ⟨by simp [opcodeTable, Instr.row], by simp [OpcodeRow.accepts, Instr.row, encode, and_F000]; rfl⟩
theorem skp (x : RegIdx) : Statement (.skp x) :=
  ⟨by simp [opcodeTable, Instr.row], by simp [OpcodeRow.accepts, Instr.row, encode, and_F0FF]; rfl⟩
theorem sknp (x : RegIdx) : Statement (.sknp x) :=
  ⟨by simp [opcodeTable, Instr.row], by simp [OpcodeRow.accepts, Instr.row, encode, and_F0FF]; rfl⟩
theorem ldVxDT (x : RegIdx) : Statement (.ldVxDT x) :=
  ⟨by simp [opcodeTable, Instr.row], by simp [OpcodeRow.accepts, Instr.row, encode, and_F0FF]; rfl⟩
theorem ldVxK (x : RegIdx) : Statement (.ldVxK x) :=
  ⟨by simp [opcodeTable, Instr.row], by simp [OpcodeRow.accepts, Instr.row, encode, and_F0FF]; rfl⟩
theorem ldDTVx (x : RegIdx) : Statement (.ldDTVx x) :=
  ⟨by simp [opcodeTable, Instr.row], by simp [OpcodeRow.accepts, Instr.row, encode, and_F0FF]; rfl⟩
theorem ldSTVx (x : RegIdx) : Statement (.ldSTVx x) :=
  ⟨by simp [opcodeTable, Instr.row], by simp [OpcodeRow.accepts, Instr.row, encode, and_F0FF]; rfl⟩
theorem addI (x : RegIdx) : Statement (.addI x) :=
  ⟨by simp [opcodeTable, Instr.row], by simp [OpcodeRow.accepts, Instr.row, encode, and_F0FF]; rfl⟩
theorem ldF (x : RegIdx) : Statement (.ldF x) :=
  ⟨by simp [opcodeTable, Instr.row], by simp [OpcodeRow.accepts, Instr.row, encode, and_F0FF]; rfl⟩
theorem ldB (x : RegIdx) : Statement (.ldB x) :=
  ⟨by simp [opcodeTable, Instr.row], by simp [OpcodeRow.accepts, Instr.row, encode, and_F0FF]; rfl⟩
theorem stRegs (x : RegIdx) : Statement (.stRegs x) :=
  ⟨by simp [opcodeTable, Instr.row], by simp [OpcodeRow.accepts, Instr.row, encode, and_F0FF]; rfl⟩
theorem ldRegs (x : RegIdx) : Statement (.ldRegs x) :=
  ⟨by simp [opcodeTable, Instr.row], by simp [OpcodeRow.accepts, Instr.row, encode, and_F0FF]; rfl⟩

end Sys2Proof.Laws.EncodesRow
end

