-- ==== Sys2Proof/Tests/Slice0.lean ====
section
/-! SUPPORT. Tests of the model's own: expected results come from the spec's rules, encodings and vectors
(95_test_vectors.md, whose ids the comments name). Then, for every statement with hypotheses, a witness that
meets them. -/

namespace Sys2Proof.Tests

open Sys2Proof Sys2Proof.Machine

/-! ### Helpers: base state B with some registers set, and a look at the next state -/

/-- B with registers set. -/
def withRegs (rs : List (RegIdx × Byte)) : State :=
  rs.foldl (fun s p => writeReg s p.1 p.2) State.reset

/-- B with I and registers set. -/
def withIdx (w : Word) (rs : List (RegIdx × Byte)) : State := setI (withRegs rs) w

/-- A state with bytes written from an address on. -/
def withBytes (s : State) (a : Nat) (bs : List Byte) : State := storeBytes s a bs

/-- Whether a result is a next state with a property. -/
def leads (r : Result) (p : State → Bool) : Bool :=
  match r with
  | .next t => p t
  | _ => false

/-- Whether one step on the word `w` leads to a state with a property. -/
def stepOn (s : State) (w : Nat) (p : State → Bool) : Bool := leads (step (s.withFetchWord 16 w)) p

/-! ### Well-formedness: one ill-formed term for each check -/

-- One unknown word of each class of R77.
theorem test_illformed_words_refused :
    wordWellFormed 0x0123 = false ∧ wordWellFormed 0x01E0 = false ∧ wordWellFormed 0x5121 = false ∧
    wordWellFormed 0x8008 = false ∧ wordWellFormed 0x9121 = false ∧ wordWellFormed 0xE0FF = false ∧
    wordWellFormed 0xF0FF = false := by decide

theorem test_wellformed_words_accepted :
    wordWellFormed 0x00E0 = true ∧ wordWellFormed 0x5120 = true ∧ wordWellFormed 0xF065 = true := by
  decide

-- R263: 3585 bytes do not load, 3584 do.
theorem test_illformed_image_refused : imageWellFormed (List.replicate 3585 0x12) = false := by
  rw [imageWellFormed, List.length_replicate]; decide
theorem test_wellformed_image_accepted : imageWellFormed (List.replicate 3584 0x12) = true := by
  rw [imageWellFormed, List.length_replicate]; decide

/-! ### Decoding: every constructor, from a word written out bit by bit from its encoding in R76 -/

theorem test_decode_control_flow :
    decode 0b0000000011101110#16 = .ok .ret ∧
    decode 0b0001101010111100#16 = .ok (.jp 0xABC) ∧
    decode 0b0010010000000001#16 = .ok (.call 0x401) ∧
    decode 0b0011001101000010#16 = .ok (.seImm 3 0x42) ∧
    decode 0b0100001110000001#16 = .ok (.sneImm 3 0x81) ∧
    decode 0b0101000100100000#16 = .ok (.seReg 1 2) ∧
    decode 0b1001111000010000#16 = .ok (.sneReg 14 1) ∧
    decode 0b1011001100000111#16 = .ok (.jpV0 0x307) := by decide

theorem test_decode_loads_and_logic :
    decode 0b0110101000000101#16 = .ok (.ldImm 10 0x05) ∧
    decode 0b0111101000000011#16 = .ok (.addImm 10 0x03) ∧
    decode 0b1000000100100000#16 = .ok (.ldReg 1 2) ∧
    decode 0b1000000100100001#16 = .ok (.orReg 1 2) ∧
    decode 0b1000000100100010#16 = .ok (.andReg 1 2) ∧
    decode 0b1000000100100011#16 = .ok (.xorReg 1 2) ∧
    decode 0b1100001100001111#16 = .ok (.rnd 3 0x0F) := by decide

theorem test_decode_flag_writers :
    decode 0b1000000100100100#16 = .ok (.addReg 1 2) ∧
    decode 0b1000000100100101#16 = .ok (.sub 1 2) ∧
    decode 0b1000000100100111#16 = .ok (.subn 1 2) ∧
    decode 0b1000000100100110#16 = .ok (.shr 1 2) ∧
    decode 0b1000000100101110#16 = .ok (.shl 1 2) := by decide

theorem test_decode_index_and_memory :
    decode 0b1010001100000000#16 = .ok (.ldI 0x300) ∧
    decode 0b1111001000011110#16 = .ok (.addI 2) ∧
    decode 0b1111010000101001#16 = .ok (.ldF 4) ∧
    decode 0b1111010100110011#16 = .ok (.ldB 5) ∧
    decode 0b1111000101010101#16 = .ok (.stRegs 1) ∧
    decode 0b1111001001100101#16 = .ok (.ldRegs 2) := by decide

theorem test_decode_graphics_keys_timers :
    decode 0b0000000011100000#16 = .ok .cls ∧
    decode 0b1101000100101111#16 = .ok (.drw 1 2 15) ∧
    decode 0b1110001010011110#16 = .ok (.skp 2) ∧
    decode 0b1110001010100001#16 = .ok (.sknp 2) ∧
    decode 0b1111001100000111#16 = .ok (.ldVxDT 3) ∧
    decode 0b1111010100001010#16 = .ok (.ldVxK 5) ∧
    decode 0b1111001100010101#16 = .ok (.ldDTVx 3) ∧
    decode 0b1111001100011000#16 = .ok (.ldSTVx 3) := by decide

-- V-ST1 to V-ST8: words that encode nothing, each rejected under its own name.
theorem test_decode_unknown :
    decode 0x0123 = .error (.unknownOpcode 0x0123) ∧ decode 0x5121 = .error (.unknownOpcode 0x5121) ∧
    decode 0x8008 = .error (.unknownOpcode 0x8008) ∧ decode 0xE0FF = .error (.unknownOpcode 0xE0FF) ∧
    decode 0xF0FF = .error (.unknownOpcode 0xF0FF) ∧ decode 0x00FF = .error (.unknownOpcode 0x00FF) ∧
    decode 0x01E0 = .error (.unknownOpcode 0x01E0) := by decide

theorem test_decodeBytes_big_endian :
    decodeBytes [0x6A, 0x05, 0x7A] = .ok (.ldImm 10 5, [0x7A]) ∧
    decodeBytes [0x6A] = .error .truncated := by decide

theorem test_encodeBytes_big_endian : encodeBytes (.drw 0 1 2) = [0xD0, 0x12] := by decide

theorem test_decodeTableWord : decodeTableWord 16 0xF533 = some (.ldB 5) ∧
    decodeTableWord 16 0x0000 = none := by decide

/-! ### Control flow -/

-- V-CF3
theorem test_ret_pops_the_top : stepOn { State.reset with stack := [0x300, 0x456] } 0x00EE
    (fun t => t.pc == 0x456 && t.stack == [0x300] && t.outcome == .ok) = true := by decide
-- V-CF2
theorem test_ret_underflow : stepOn State.reset 0x00EE
    (fun t => t.pc == 0x202 && t.fault == some .stackUnderflow) = true := by decide
-- V-CF5
theorem test_jp_odd : stepOn State.reset 0x1201 (fun t => t.pc == 0x201) = true := by decide
-- V-CF8
theorem test_call_depth_15 : stepOn { State.reset with stack := List.replicate 15 0 } 0x2ABC
    (fun t => t.pc == 0xABC && t.sp == 16 && t.stack.getLast? == some 0x202) = true := by decide
-- V-CF9
theorem test_call_overflow : stepOn { State.reset with stack := List.replicate 16 0 } 0x2ABC
    (fun t => t.pc == 0x202 && t.sp == 16 && t.fault == some .stackOverflow) = true := by decide
-- V-CF11, V-CF12
theorem test_seImm_skips : stepOn (withRegs [(3, 0x12)]) 0x3312 (fun t => t.pc == 0x204) = true := by
  decide
theorem test_seImm_stays : stepOn (withRegs [(3, 0x13)]) 0x3312 (fun t => t.pc == 0x202) = true := by
  decide
-- V-CF13, V-CF14
theorem test_sneImm_stays : stepOn (withRegs [(3, 0x12)]) 0x4312 (fun t => t.pc == 0x202) = true := by
  decide
theorem test_sneImm_skips : stepOn (withRegs [(3, 0x13)]) 0x4312 (fun t => t.pc == 0x204) = true := by
  decide
-- V-CF16, V-CF17
theorem test_seReg_stays : stepOn (withRegs [(1, 7), (2, 8)]) 0x5120
    (fun t => t.pc == 0x202) = true := by decide
theorem test_seReg_same_register : stepOn State.reset 0x5110 (fun t => t.pc == 0x204) = true := by
  decide
-- V-CF18, V-CF19
theorem test_sneReg_stays : stepOn (withRegs [(1, 7), (2, 7)]) 0x9120
    (fun t => t.pc == 0x202) = true := by decide
theorem test_sneReg_skips : stepOn (withRegs [(1, 7), (2, 8)]) 0x9120
    (fun t => t.pc == 0x204) = true := by decide
-- V-CF21, V-CF22
theorem test_jpV0_largest : stepOn (withRegs [(0, 0xFF)]) 0xBFFF
    (fun t => t.pc == 0x10FE) = true := by decide
theorem test_jpV0_ignores_Vx : stepOn (withRegs [(0, 0x10), (3, 0x55)]) 0xB300
    (fun t => t.pc == 0x310) = true := by decide

/-! ### Registers and arithmetic -/

-- V-AL2
theorem test_ldImm_VF : stepOn State.reset 0x6FFF (fun t => readReg t 15 == 0xFF) = true := by decide
-- V-AL5
theorem test_addImm_keeps_VF : stepOn (withRegs [(10, 0xFF), (15, 0x77)]) 0x7A01
    (fun t => readReg t 10 == 0 && readReg t 15 == 0x77) = true := by decide
-- V-AL6
theorem test_ldReg : stepOn (withRegs [(1, 1), (2, 0x9C)]) 0x8120
    (fun t => readReg t 1 == 0x9C && readReg t 2 == 0x9C) = true := by decide
-- V-AL7
theorem test_orReg : stepOn (withRegs [(1, 0xF0), (2, 0x0F), (15, 0x55)]) 0x8121
    (fun t => readReg t 1 == 0xFF && readReg t 15 == 0x55) = true := by decide
-- V-AL8
theorem test_andReg : stepOn (withRegs [(1, 0xF0), (2, 0x3C), (15, 0x55)]) 0x8122
    (fun t => readReg t 1 == 0x30 && readReg t 15 == 0x55) = true := by decide
-- V-AL9
theorem test_xorReg : stepOn (withRegs [(1, 0xFF), (2, 0x0F)]) 0x8123
    (fun t => readReg t 1 == 0xF0) = true := by decide
-- R138's corner cases: 255 is no carry, 256 is one; V-AL15: x = 15.
theorem test_addReg_carry_boundary :
    stepOn (withRegs [(1, 0xFE), (2, 0x01)]) 0x8124
      (fun t => readReg t 1 == 0xFF && readReg t 15 == 0) = true ∧
    stepOn (withRegs [(1, 0xFF), (2, 0x01)]) 0x8124
      (fun t => readReg t 1 == 0 && readReg t 15 == 1) = true := by decide
theorem test_addReg_VF : stepOn (withRegs [(1, 0x01), (15, 0xFF)]) 0x8F14
    (fun t => readReg t 15 == 1) = true := by decide
-- V-AL17, V-AL18; V-AL20: x = 15.
theorem test_sub_borrow_boundary :
    stepOn (withRegs [(1, 0x10), (2, 0x30)]) 0x8125
      (fun t => readReg t 1 == 0xE0 && readReg t 15 == 0) = true ∧
    stepOn (withRegs [(1, 0x42), (2, 0x42)]) 0x8125
      (fun t => readReg t 1 == 0 && readReg t 15 == 1) = true := by decide
theorem test_sub_VF : stepOn (withRegs [(1, 0x01), (15, 0x00)]) 0x8F15
    (fun t => readReg t 15 == 0) = true := by decide
-- V-AL21, V-AL22
theorem test_subn_order :
    stepOn (withRegs [(1, 0x10), (2, 0x30)]) 0x8127
      (fun t => readReg t 1 == 0x20 && readReg t 15 == 1) = true ∧
    stepOn (withRegs [(1, 0x30), (2, 0x10)]) 0x8127
      (fun t => readReg t 1 == 0xE0 && readReg t 15 == 0) = true := by decide
-- V-AL24, V-AL27
theorem test_shr_ignores_Vy : stepOn (withRegs [(1, 0x05), (2, 0xFF)]) 0x8126
    (fun t => readReg t 1 == 0x02 && readReg t 15 == 1 && readReg t 2 == 0xFF) = true := by decide
theorem test_shr_VF : stepOn (withRegs [(15, 0x03)]) 0x8F06
    (fun t => readReg t 15 == 1) = true := by decide
-- V-AL28, V-AL31
theorem test_shl : stepOn (withRegs [(1, 0x81)]) 0x810E
    (fun t => readReg t 1 == 0x02 && readReg t 15 == 1) = true := by decide
theorem test_shl_VF : stepOn (withRegs [(15, 0x40)]) 0x8F0E
    (fun t => readReg t 15 == 0) = true := by decide
-- V-AL33: kk = 0 gives 0 for every draw, and consumes one.
theorem test_rnd_mask_zero : ∃ t, exec (.rnd 1 0) State.reset = .next t ∧
    readReg t 1 = 0 ∧ t.draws = 1 := by
  refine ⟨_, rfl, ?_, rfl⟩
  simp

/-! ### Index register and memory -/

-- V-IM2
theorem test_ldI : stepOn State.reset 0xAFFF (fun t => t.I == 0xFFF) = true := by decide
-- V-IM4, V-IM5
theorem test_addI_past_4095 : stepOn (withIdx 0xFFF [(1, 1)]) 0xF11E
    (fun t => t.I == 0x1000 && readReg t 15 == 0) = true := by decide
theorem test_addI_wraps : stepOn (withIdx 0xFFFF [(1, 2)]) 0xF11E (fun t => t.I == 1) = true := by
  decide
-- V-IM7, V-IM8
theorem test_ldF_last_digit : stepOn (withRegs [(1, 0x0F)]) 0xF129 (fun t => t.I == 0x9B) = true := by
  decide
theorem test_ldF_no_mask : stepOn (withRegs [(1, 0xFF)]) 0xF129 (fun t => t.I == 0x54B) = true := by
  decide
-- V-IM9, V-IM12
theorem test_ldB : stepOn (withIdx 0x300 [(1, 123)]) 0xF133
    (fun t => memRead t 0x300 == 1 && memRead t 0x301 == 2 && memRead t 0x302 == 3) = true := by decide
theorem test_ldB_wraps : stepOn (withBytes (withIdx 0xFFE [(1, 208)]) 0xFFE [0xEE, 0xEE, 0xEE]) 0xF133
    (fun t => memRead t 0xFFE == 2 && memRead t 0xFFF == 0 && memRead t 0 == 8) = true := by decide
-- V-IM13; R165's example
theorem test_stRegs_inclusive : stepOn (withIdx 0x300 [(0, 1), (1, 2), (2, 3), (3, 4)]) 0xF255
    (fun t => memRead t 0x300 == 1 && memRead t 0x302 == 3 && memRead t 0x303 == 0 && t.I == 0x300) =
    true := by decide
theorem test_stRegs_wraps : stepOn (withIdx 0xFFF [(0, 0x11), (1, 0x22)]) 0xF155
    (fun t => memRead t 0xFFF == 0x11 && memRead t 0 == 0x22) = true := by decide
-- V-IM15, V-IM17
theorem test_ldRegs_inclusive : stepOn (withBytes (withIdx 0x300 []) 0x300 [0xAA, 0xBB, 0xCC]) 0xF165
    (fun t => readReg t 0 == 0xAA && readReg t 1 == 0xBB && readReg t 2 == 0 && t.I == 0x300) =
    true := by decide
theorem test_ldRegs_wraps : stepOn (withBytes (withIdx 0xFFF []) 0xFFF [0x12, 0x34]) 0xF165
    (fun t => readReg t 0 == 0x12 && readReg t 1 == 0x34) = true := by decide

/-! ### Graphics -/

-- V-GR1
theorem test_cls : stepOn { State.reset with fb := fbToggle State.reset.fb 63 31 } 0x00E0
    (fun t => !pixel t 63 31 && readReg t 15 == 0) = true := by decide
-- V-GR3
theorem test_drw_wraps : stepOn (withBytes (withIdx 0x300 [(0, 60), (1, 31)]) 0x300 [0xFF, 0x81]) 0xD012
    (fun t => pixel t 60 31 && pixel t 63 31 && pixel t 0 31 && pixel t 3 31 && !pixel t 4 31 &&
      pixel t 60 0 && pixel t 3 0 && !pixel t 61 0 && readReg t 15 == 0) = true := by decide
-- V-GR4
theorem test_drw_collision :
    stepOn (withBytes { withIdx 0x300 [] with fb := fbToggle State.reset.fb 1 0 } 0x300 [0xC0]) 0xD011
    (fun t => pixel t 0 0 && !pixel t 1 0 && readReg t 15 == 1) = true := by decide

/-! ### Keypad and timers -/

-- V-IT3, V-IT2
theorem test_skp_mod_16 : stepOn (setKey (withRegs [(1, 0x25)]) 5 true) 0xE19E
    (fun t => t.pc == 0x204) = true := by decide
theorem test_skp_stays : stepOn (withRegs [(1, 5)]) 0xE19E (fun t => t.pc == 0x202) = true := by decide
-- V-IT4, V-IT5
theorem test_sknp_stays : stepOn (setKey (withRegs [(1, 5)]) 5 true) 0xE1A1
    (fun t => t.pc == 0x202) = true := by decide
theorem test_sknp_skips : stepOn (withRegs [(1, 5)]) 0xE1A1 (fun t => t.pc == 0x204) = true := by decide
-- V-IT6, V-IT7
theorem test_ldVxK_waits : stepOn State.reset 0xF50A
    (fun t => t.pc == 0x200 && t.outcome == .keyWait) = true := by decide
theorem test_ldVxK_lowest : stepOn (setKey (setKey State.reset 7 true) 3 true) 0xF50A
    (fun t => t.pc == 0x202 && readReg t 5 == 3 && t.outcome == .ok) = true := by decide
-- V-IT9
theorem test_ldVxDT : stepOn { State.reset with dt := 60 } 0xF107
    (fun t => readReg t 1 == 0x3C && t.dt == 60) = true := by decide
-- V-IT10
theorem test_ldDTVx : stepOn (withRegs [(1, 60)]) 0xF115 (fun t => t.dt == 60 && t.st == 0) = true := by
  decide
-- V-IT12
theorem test_ldSTVx : stepOn { State.reset with st := 9 } 0xF118 (fun t => t.st == 0) = true := by decide

/-! ### The step, conditions and the host -/

-- V-ST9: fetch wraps at 4095.
theorem test_fetch_wraps : stepOn { State.reset with pc := 0xFFF } 0x6A05
    (fun t => readReg t 10 == 5 && t.pc == 0x1001) = true := by decide
-- V-ST1, V-ST2: both policies.
theorem test_unknown_opcode_policies :
    (raiseUnder .halt (.unknownOpcode 0x0123) State.reset).fault = some (.unknownOpcode 0x0123) ∧
    (raiseUnder .carryOn (.unknownOpcode 0x0123) State.reset).fault = none := by decide
-- V-H9: the first step of a machine without a program.
theorem test_first_step_without_program : leads (step State.reset)
    (fun t => t.pc == 0x202 && t.outcome == .raised (.unknownOpcode 0)) = true := by decide
-- V-H4
theorem test_halted_step : leads (step { State.reset with fault := some .stackOverflow, pc := 0x202 })
    (fun t => t.pc == 0x202 && t.outcome == .halted) = true := by decide
-- V-H2, V-H5
theorem test_timerTick : (timerTick { State.reset with st := 1 }).dt = 0 ∧
    (timerTick { State.reset with st := 1 }).st = 0 ∧
    (timerTick { State.reset with fault := some .stackOverflow, dt := 5 }).dt = 4 := by decide
-- V-H8
theorem test_construct_too_large :
    construct (List.replicate 3585 0x12) .default = .error (.imageTooLarge 3585) := by
  rw [construct, test_illformed_image_refused, List.length_replicate]; rfl
-- R227
theorem test_condition_codes : Condition.code (.imageTooLarge 4000) = 1 ∧
    Condition.code (.step (.unknownOpcode 0)) = 2 ∧ Condition.code (.step .stackOverflow) = 3 ∧
    Condition.code (.step .stackUnderflow) = 4 ∧ Condition.code .outOfRange = 5 := by decide
-- Writing back what an unlisted address reads as removes the entry.
theorem test_memory_canonical :
    (memWrite (memWrite State.reset 0x300 7) 0x300 0).mem = [] ∧
    (memWrite (memWrite State.reset 0x301 7) 0x1300 8).mem = [(0x300, 8), (0x301, 7)] := by decide

/-! ### Witnesses: each meets all hypotheses of the statement it is named after -/

theorem test_witness_EncodeOfDecodeIsTheWord : decode 0x6A05 = .ok (.ldImm 10 5) := by decide

theorem test_witness_WordDecodesExactlyWhenItsRowAccepts :
    ⟨0x5000, 0xF00F⟩ ∈ opcodeTable ∧ OpcodeRow.accepts ⟨0x5000, 0xF00F⟩ 0x5120 = true := by decide

theorem test_witness_StepRunsTheDecodedInstruction :
    let s := State.reset.withFetchWord 16 0x6A05
    s.fault = none ∧ decodeBytes [memRead s s.pc.toNat, memRead s (s.pc.toNat + 1)] =
      .ok (.ldImm 10 5, []) := by decide

theorem test_witness_UnknownWordOnlyAdvances :
    State.reset.fault = none ∧ decode (fetch State.reset) = .error (.unknownOpcode 0) := by decide

theorem test_witness_StepOnFaultedMachineReportsHalted :
    ({ State.reset with fault := some .stackOverflow } : State).fault = some .stackOverflow := rfl

theorem test_witness_FetchWrapsAtTheTopOfMemory :
    ({ State.reset with pc := 0xFFFF } : State).pc.toNat % 4096 = 4095 := by decide

theorem test_witness_ReturnPopsOrUnderflows :
    ({ State.reset with stack := [0x456] } : State).stack = [] ++ [0x456] ∧
    State.reset.stack = [] := ⟨rfl, rfl⟩

theorem test_witness_CallPushesOrOverflows :
    ({ State.reset with stack := List.replicate 15 0 } : State).sp < 16 ∧
    16 ≤ ({ State.reset with stack := List.replicate 16 0 } : State).sp := by decide

/-- CALL 0x300 at pc, RET at 0x300. -/
def callState : State := withBytes (State.reset.withFetchWord 16 0x2300) 0x300 [0x00, 0xEE]

theorem test_witness_CallThenReturnRestoresPc :
    callState.fault = none ∧ decode (fetch callState) = .ok (.call 0x300) ∧ callState.sp < 16 ∧
    decode (fetch { callState with pc := zext16 (0x300 : Addr12) }) = .ok .ret := by decide

theorem test_witness_CallThenReturnRestoresPc_overflow :
    let s := { callState with stack := List.replicate 16 0 }
    s.fault = none ∧ decode (fetch s) = .ok (.call 0x300) ∧ 16 ≤ s.sp := by decide

theorem test_witness_RandomIsMaskedAndDrawsOnce :
    (0x0F : Byte).getLsbD 4 = false ∧ (0 : RegIdx) ≠ 1 := by decide

theorem test_witness_DecimalDigitsAreStored :
    ∀ b ∈ storedAddrs (withIdx 0xFFF []) (.ldB 1), memAddr 2 ≠ memAddr b := by decide

theorem test_witness_RegistersAreStoredFromI :
    (1 : RegIdx) ≤ 1 ∧ ∀ b ∈ storedAddrs (withIdx 0xFFF []) (.stRegs 1), memAddr 1 ≠ memAddr b := by
  decide

theorem test_witness_FontPointerFindsTheGlyph :
    (readReg (withRegs [(1, 15)]) 1).toNat < 16 ∧
    (∀ j : Fin 80, memRead (withRegs [(1, 15)]) (80 + j.val) = Config.font j) ∧
    (4 : Nat) < 5 ∧ (79 : Fin 80).val = 5 * (readReg (withRegs [(1, 15)]) 1).toNat + 4 := by
  refine ⟨by decide, fun j => ?_, by decide, by decide⟩
  show constructionByte ((80 + j.val) % 4096) = Config.font j
  rw [Nat.mod_eq_of_lt (by omega)]
  simp [constructionByte]
  omega

theorem test_witness_FetchSeesStoredRegisters :
    (1 : RegIdx).val = (0 : RegIdx).val + 1 ∧ (1 : RegIdx) ≤ 1 := by decide

theorem test_witness_DrawTogglesTheCoveredCells :
    let s := withBytes (withIdx 0x300 []) 0x300 [0x80]
    SpriteCovers s 0 1 (1 : Fin 16).val 0 0 ∧ ¬ SpriteCovers s 0 1 (1 : Fin 16).val 0 1 := by
  refine ⟨⟨0, by decide, 0, by decide, by decide⟩, ?_⟩
  rintro ⟨row, hrow, col, -, -, -, h⟩
  obtain rfl : row = 0 := by simpa using hrow
  exact absurd h (by decide)

theorem test_witness_DrawTogglesTheCoveredCells_collision :
    let s := withBytes { withIdx 0x300 [] with fb := fbToggle State.reset.fb 0 0 } 0x300 [0x80]
    ∃ c r, SpriteCovers s 0 1 (1 : Fin 16).val c r ∧ pixel s c r = true :=
  ⟨0, 0, ⟨0, by decide, 0, by decide, by decide⟩, by decide⟩

theorem test_witness_DrawTogglesTheCoveredCells_no_collision :
    ¬ ∃ c r, SpriteCovers State.reset 0 1 (1 : Fin 16).val c r ∧ pixel State.reset c r = true := by
  rintro ⟨c, r, -, h⟩
  exact absurd (h.symm.trans (fbCell_clear c r)) (by decide)

theorem test_witness_DrawingTwiceRestoresTheScreen : (14 : RegIdx) ≠ 15 ∧ (0 : RegIdx) ≠ 15 := by decide

theorem test_witness_KeySkipsTestKeyModSixteen :
    (5 : Fin 16).val = (readReg (withRegs [(1, 0x25)]) 1).toNat % 16 := by decide

theorem test_witness_KeyWaitTakesTheLowestKeyOrRewinds :
    (let s := setKey (setKey State.reset 7 true) 3 true
     keyPressed s 3 = true ∧ ∀ j < 3, keyPressed s j = false) ∧
    ∀ k, keyPressed State.reset k = false := by decide

theorem test_witness_OnlyTheListedRegistersAreWritten :
    (∃ t, exec (.addReg 1 2) State.reset = .next t) ∧
    writesReg State.reset (.addReg 1 2) 14 = false := ⟨⟨_, rfl⟩, by decide⟩

theorem test_witness_OnlyTheListedRegistersAreRead :
    let s := State.reset
    let s' := withRegs [(2, 0xFF)]
    s' = { s with v := s'.v } ∧ s' ≠ s ∧
    ∀ j, readsReg (.shr 1 2) j = true → readReg s' j = readReg s j := by
  refine ⟨rfl, fun h => ?_, by decide⟩
  exact absurd (congrArg (fun s => readReg s 2) h) (by decide)

theorem test_witness_OnlyTheListedAddressesAreStoredTo :
    storedAddrs State.reset (.ldB 0) ≠ [] ∧ (∃ t, exec (.ldB 0) State.reset = .next t) ∧
    ∀ b ∈ storedAddrs State.reset (.ldB 0), memAddr 3 ≠ memAddr b := ⟨by decide, ⟨_, rfl⟩, by decide⟩

theorem test_witness_OnlyThreeInstructionsWriteI :
    stepOn State.reset 0xAFFF (fun t => t.I != State.reset.I) = true := by decide

theorem test_witness_StepsChangeTimersOnlyByFx15AndFx18 :
    stepOn (withRegs [(1, 60)]) 0xF115 (fun t => t.dt != 0) = true ∧
    stepOn (withRegs [(1, 60)]) 0xF118 (fun t => t.st != 0) = true := by decide

theorem test_witness_StepsChangeTheScreenOnlyByClearAndDraw :
    stepOn (withBytes (withIdx 0x300 []) 0x300 [0x80]) 0xD011 (fun t => pixel t 0 0) = true ∧
    pixel (withBytes (withIdx 0x300 []) 0x300 [0x80]) 0 0 = false := by decide

theorem test_witness_StepsChangeTheStackOnlyByCallAndReturn :
    stepOn State.reset 0x2ABC (fun t => t.stack != []) = true ∧
    stepOn { State.reset with stack := [0x456] } 0x00EE (fun t => t.stack != [0x456]) = true := by decide

theorem test_witness_StepsDrawOnlyByCxkk :
    (let s := State.reset.withFetchWord 16 0xC30F
     s.fault = none ∧ decode (fetch s) = .ok (.rnd 3 0x0F)) ∧
    ∃ t, step (State.reset.withFetchWord 16 0xC30F) = .next t := ⟨by decide, ⟨_, rfl⟩⟩

theorem test_witness_SetKeyIsTheOnlyWriterOfTheLatch : ∃ t, step State.reset = .next t := ⟨_, rfl⟩

theorem test_witness_ResetLeavesTheConstructionState : (160 : Nat) < 4096 ∧ (79 : Nat) < 80 := by decide

theorem test_witness_LoadCopiesTheImageVerbatim :
    (List.replicate 3584 (0x12 : Byte)).length ≤ 3584 ∧
    (List.replicate 3584 (0x12 : Byte))[3583]? = some 0x12 ∧ (511 : Nat) < 512 ∧
    512 + [(0x12 : Byte)].length ≤ 513 := by
  rw [List.length_replicate, List.getElem?_replicate]; decide

theorem test_witness_StopPointsHoldStill_faulted :
    ({ State.reset with fault := some .stackUnderflow } : State).Faulted := by
  simp [State.Faulted]

theorem test_witness_StopPointsHoldStill_idle : (State.reset.withFetchWord 16 0x1200).IdleLoop :=
  ⟨by decide, 0x200, by decide, by decide⟩

theorem test_witness_StopPointsHoldStill_keyWait : (State.reset.withFetchWord 16 0xF50A).KeyWait :=
  ⟨by decide, 5, by decide, by decide⟩

theorem test_witness_FaultIsNeverCleared :
    let s := { State.reset with fault := some .stackOverflow }
    s.fault = some .stackOverflow ∧ ∃ t, runEvents s [.timerTick, .setKey 3 true, .step] = .next t :=
  ⟨rfl, ⟨_, rfl⟩⟩

theorem test_witness_EveryStepKeepsInv : State.reset.Inv ∧ ∃ t, step State.reset = .next t :=
  ⟨⟨reset_memory_wf, by decide, by simp [State.reset], by simp [State.reset], by simp [State.reset]⟩,
    ⟨_, rfl⟩⟩

theorem test_witness_EveryRunFromConstructionKeepsInv :
    ∃ s, construct [0x6A, 0x05] (.given 1) = .ok s := ⟨_, rfl⟩

theorem test_witness_EveryEventKeepsInv :
    State.reset.Inv ∧ ∃ t, runEvent State.reset .timerTick = .next t :=
  ⟨test_witness_EveryStepKeepsInv.1, ⟨_, rfl⟩⟩

theorem test_witness_EveryConstructionMeetsInv : ∃ s, construct [0x12, 0x00] .default = .ok s := ⟨_, rfl⟩

end Sys2Proof.Tests
end

/-! SUPPORT. Two-level decoding and the opcode table (30_encoding.md R75, R76). The `op` of a word fixes which
of its bits select the instruction. Those bits and their mask are the only row that can accept the word, and
the row of the instruction that it decodes to. -/

namespace Sys2Proof

/-- The bits that select within the class of an `op`: the whole word in class 0, the low nibble in classes
5, 8 and 9, the low byte in classes E and F, and `op` alone in the others (R75). -/
def selectorMask : BitVec 4 → Word
  | 0x0#4 => 0xFFFF#16
  | 0x5#4 | 0x8#4 | 0x9#4 => 0xF00F#16
  | 0xE#4 | 0xF#4 => 0xF0FF#16
  | _ => 0xF000#16

/-- The only row that can accept a word: its selecting bits, under their mask. -/
def selectorRow (w : Word) : OpcodeRow := ⟨w &&& selectorMask (opField w), selectorMask (opField w)⟩

/-! ### Fields of a word under a mask of the table -/

theorem opField_and_F000 (w : Word) : opField (w &&& 0xF000#16) = opField w := by
  rw [and_F000, opField_encodeNNN]

theorem opField_and_F00F (w : Word) : opField (w &&& 0xF00F#16) = opField w := by
  rw [and_F00F, opField_encodeXYN]

theorem nField_and_F00F (w : Word) : nField (w &&& 0xF00F#16) = nField w := by
  rw [and_F00F, nField_encodeXYN]

theorem opField_and_F0FF (w : Word) : opField (w &&& 0xF0FF#16) = opField w := by
  rw [and_F0FF, opField_encodeXKK]

theorem kkField_and_F0FF (w : Word) : kkField (w &&& 0xF0FF#16) = kkField w := by
  rw [and_F0FF, kkField_encodeXKK]

/-- Every selecting mask keeps `op`. -/
theorem opField_and_selectorMask (w : Word) (op : BitVec 4) :
    opField (w &&& selectorMask op) = opField w := by
  unfold selectorMask
  split
  · rw [and_FFFF]
  · exact opField_and_F00F w
  · exact opField_and_F00F w
  · exact opField_and_F00F w
  · exact opField_and_F0FF w
  · exact opField_and_F0FF w
  · exact opField_and_F000 w

/-! ### The rows of the table -/

theorem mask_eq_selectorMask : ∀ r ∈ opcodeTable, r.mask = selectorMask (opField r.bits) := by decide

theorem decode_bits_isOk : ∀ r ∈ opcodeTable, (decode r.bits).isOk = true := by decide

/-- A row of the table accepts a word exactly when it is the word's selector row. -/
theorem accepts_iff_eq_selectorRow {r : OpcodeRow} (hr : r ∈ opcodeTable) (w : Word) :
    r.accepts w = true ↔ r = selectorRow w := by
  constructor
  · intro h
    have hbits : w &&& r.mask = r.bits := eq_of_beq h
    have hop : opField w = opField r.bits := by
      rw [← hbits, mask_eq_selectorMask r hr, opField_and_selectorMask]
    rw [selectorRow, hop, ← mask_eq_selectorMask r hr, hbits]
  · rintro rfl
    exact beq_self_eq_true _

/-! ### The selector row of a word, by class -/

/-- The selector row of a word in a class of one instruction. -/
theorem selectorRow_of_op {w : Word} {op : BitVec 4} (hop : opField w = op)
    (hmask : selectorMask op = 0xF000#16) : selectorRow w = ⟨encodeNNN op 0, 0xF000#16⟩ := by
  rw [selectorRow, hop, hmask, and_F000, hop]

/-- The selector row of a word in a class that its low nibble completes. -/
theorem selectorRow_of_nibble {w : Word} {op : BitVec 4} (hop : opField w = op)
    (hmask : selectorMask op = 0xF00F#16) :
    selectorRow w = ⟨encodeXYN op 0 0 (nField w), 0xF00F#16⟩ := by
  rw [selectorRow, hop, hmask, and_F00F, hop]

/-- The selector row of a word in a class that its low byte completes. -/
theorem selectorRow_of_byte {w : Word} {op : BitVec 4} (hop : opField w = op)
    (hmask : selectorMask op = 0xF0FF#16) :
    selectorRow w = ⟨encodeXKK op 0 (kkField w), 0xF0FF#16⟩ := by
  rw [selectorRow, hop, hmask, and_F0FF, hop]

/-! ### What a word decodes to, and its selector row -/

theorem row_eq_of_decodeClass0 {w : Word} {i : Instr} (hop : opField w = 0x0#4)
    (h : decodeClass0 w = .ok i) : i.row = selectorRow w := by
  have hrow : selectorRow w = ⟨w, 0xFFFF#16⟩ := by simp [selectorRow, hop, selectorMask, and_FFFF]
  unfold decodeClass0 at h
  split_ifs at h with hcls hret
  · cases h; rw [hrow, hcls]; rfl
  · cases h; rw [hrow, hret]; rfl

theorem row_eq_of_decodeClass8 {w : Word} {i : Instr} (hop : opField w = 0x8#4)
    (h : decodeClass8 w = .ok i) : i.row = selectorRow w := by
  rw [selectorRow_of_nibble hop rfl]
  unfold decodeClass8 at h
  split at h <;> cases h
  all_goals rename_i hn; rw [hn]; rfl

theorem row_eq_of_decodeClassE {w : Word} {i : Instr} (hop : opField w = 0xE#4)
    (h : decodeClassE w = .ok i) : i.row = selectorRow w := by
  rw [selectorRow_of_byte hop rfl]
  unfold decodeClassE at h
  split at h <;> cases h
  all_goals rename_i hkk; rw [hkk]; rfl

theorem row_eq_of_decodeClassF {w : Word} {i : Instr} (hop : opField w = 0xF#4)
    (h : decodeClassF w = .ok i) : i.row = selectorRow w := by
  rw [selectorRow_of_byte hop rfl]
  unfold decodeClassF at h
  split at h <;> cases h
  all_goals rename_i hkk; rw [hkk]; rfl

/-- A word decodes only to an instruction of its selector row. -/
theorem row_eq_selectorRow_of_decode {w : Word} {i : Instr} (h : decode w = .ok i) :
    i.row = selectorRow w := by
  unfold decode at h
  split at h -- `h_k` is the class of `op` k - 1
  case h_1 hop => exact row_eq_of_decodeClass0 hop h
  case h_9 hop => exact row_eq_of_decodeClass8 hop h
  case h_15 hop => exact row_eq_of_decodeClassE hop h
  case h_16 hop => exact row_eq_of_decodeClassF hop h
  case h_6 hop | h_10 hop =>
    split_ifs at h with hn
    cases h; rw [selectorRow_of_nibble hop rfl, hn]; rfl
  case h_17 => cases h
  all_goals rename_i hop; cases h; exact (selectorRow_of_op hop rfl).symm

/-- Whether a word decodes depends on its selecting bits alone. -/
theorem isOk_decode_selectorRow_bits (w : Word) :
    (decode (selectorRow w).bits).isOk = (decode w).isOk := by
  unfold selectorRow decode
  rw [opField_and_selectorMask]
  split -- `h_k` is the class of `op` k - 1
  case h_1 hop => simp only [hop, selectorMask, and_FFFF]
  case h_6 hop | h_10 hop =>
    simp only [hop, selectorMask, nField_and_F00F]
    split <;> rfl
  case h_9 hop =>
    simp only [hop, selectorMask, decodeClass8, nField_and_F00F]
    split <;> rfl
  case h_15 hop =>
    simp only [hop, selectorMask, decodeClassE, kkField_and_F0FF]
    split <;> rfl
  case h_16 hop =>
    simp only [hop, selectorMask, decodeClassF, kkField_and_F0FF]
    split <;> rfl
  all_goals rfl

/-- A word whose selector row is in the table decodes. -/
theorem exists_decode_of_selectorRow_mem {w : Word} (h : selectorRow w ∈ opcodeTable) :
    ∃ i, decode w = .ok i := by
  have hok : (decode w).isOk = true := by
    rw [← isOk_decode_selectorRow_bits, decode_bits_isOk (selectorRow w) h]
  match hd : decode w with
  | .ok i => exact ⟨i, rfl⟩
  | .error e => rw [hd] at hok; cases hok

/-- Settles O3: both sides say that the row is the word's selector row, so two rows that accept one word
are equal. -/
theorem wordDecodesExactlyWhenItsRowAccepts : Obligations.WordDecodesExactlyWhenItsRowAccepts := by
  refine ⟨rfl, fun r hr w => ?_, fun r hr q hq w hrw hqw => ?_⟩
  · rw [accepts_iff_eq_selectorRow hr]
    constructor
    · rintro rfl
      obtain ⟨i, hi⟩ := exists_decode_of_selectorRow_mem hr
      exact ⟨i, hi, row_eq_selectorRow_of_decode hi⟩
    · rintro ⟨i, hi, rfl⟩
      exact row_eq_selectorRow_of_decode hi
  · rw [accepts_iff_eq_selectorRow hr] at hrw
    rw [accepts_iff_eq_selectorRow hq] at hqw
    exact hrw.trans hqw.symm

end Sys2Proof

/-! SUPPORT. What an instruction and a step can do (30_encoding.md R80 to R88), said once: each frame and
the invariant is then a case split on `ExecEffect` and `StepEffect`, and unfolds neither `exec` nor `step`. -/

namespace Sys2Proof.Machine

/-- A register file that differs from the state's at most where the spec's table lets `i` write (R25). -/
def KeepsUnwritten (s : State) (i : Instr) (v : Vector Byte 16) : Prop :=
  ∀ j, writesReg s i j = false → readReg { s with v := v } j = readReg s j

/-- What an instruction executed in `s` can do: one constructor per kind of change, naming every field that
changes. -/
inductive ExecEffect (s : State) : Instr → State → Prop where
  /-- The register file, and nothing else. -/
  | setsRegs {i : Instr} (v : Vector Byte 16) (hv : KeepsUnwritten s i v) :
      ExecEffect s i { s with v := v, outcome := .ok }
  /-- Cxkk: the register file and one draw (R143). -/
  | drawsByte (x : RegIdx) (kk : Byte) (v : Vector Byte 16) (hv : KeepsUnwritten s (.rnd x kk) v) :
      ExecEffect s (.rnd x kk) { s with v := v, draws := s.draws + 1, outcome := .ok }
  /-- A jump or a skip taken or not (R100, R102, R108). -/
  | setsPc {i : Instr} (pc : Word) : ExecEffect s i { s with pc := pc, outcome := .ok }
  /-- Fx0A without a pressed key (R203). -/
  | waits (x : RegIdx) : ExecEffect s (.ldVxK x) { s with pc := s.pc - 2, outcome := .keyWait }
  /-- 2nnn below the greatest depth (R103). -/
  | pushes (nnn : Addr12) (hsp : s.sp < Config.stackDepth) :
      ExecEffect s (.call nnn)
        { s with pc := zext16 nnn, stack := s.stack ++ [s.pc], outcome := .ok }
  /-- 00EE with a return address (R101). -/
  | pops (rest : List Word) (w : Word) (hstack : s.stack = rest ++ [w]) :
      ExecEffect s .ret { s with pc := w, stack := rest, outcome := .ok }
  /-- The two conditions of the call stack (R224, R225). -/
  | raises {i : Instr} (c : StepCondition) (hc : c = .stackOverflow ∨ c = .stackUnderflow) :
      ExecEffect s i (raiseUnder unknownOpcodePolicy c s)
  /-- `I` (R26). -/
  | setsIndex {i : Instr} (w : Word) (hi : writesIndex i = true) :
      ExecEffect s i { s with I := w, outcome := .ok }
  /-- Fx33 and Fx55: memory, whose canonical form they keep (R164, R165). -/
  | stores {i : Instr} (m : Memory) (hm : s.mem.wf → m.wf) :
      ExecEffect s i { s with mem := m, outcome := .ok }
  /-- 00E0 (R180). -/
  | clears (fb : Vector (Vector Bool 32) 64) : ExecEffect s .cls { s with fb := fb, outcome := .ok }
  /-- Dxyn: the framebuffer and VF (R181). -/
  | plots (x y : RegIdx) (n : Fin 16) (fb : Vector (Vector Bool 32) 64) (v : Vector Byte 16)
      (hv : KeepsUnwritten s (.drw x y n) v) :
      ExecEffect s (.drw x y n) { s with fb := fb, v := v, outcome := .ok }
  /-- Fx15 (R205). -/
  | setsDT (x : RegIdx) (b : Byte) : ExecEffect s (.ldDTVx x) { s with dt := b, outcome := .ok }
  /-- Fx18 (R206). -/
  | setsST (x : RegIdx) (b : Byte) : ExecEffect s (.ldSTVx x) { s with st := b, outcome := .ok }

/-- The result is a next state that the instruction's effect describes. -/
def Answers (s : State) (i : Instr) (r : Result) : Prop := ∃ t, r = .next t ∧ ExecEffect s i t

/-! ### The effect of each shared operation -/

theorem answers_writeReg {s : State} {i : Instr} (x : RegIdx) (b : Byte)
    (h : ∀ j, writesReg s i j = false → j ≠ x) : Answers s i (complete (writeReg s x b)) :=
  ⟨_, rfl, .setsRegs _ fun j hj => readReg_writeReg_of_ne s b (h j hj)⟩

theorem answers_writeResultAndFlag {s : State} {i : Instr} (x : RegIdx) (r : Byte) (f : Bool)
    (h : ∀ j, writesReg s i j = false → j ≠ x ∧ j ≠ Config.flagReg) :
    Answers s i (complete (writeResultAndFlag s x r f)) := by
  refine ⟨_, rfl, .setsRegs (writeResultAndFlag s x r f).v fun j hj => ?_⟩
  obtain ⟨hx, hflag⟩ := h j hj
  exact (readReg_writeResultAndFlag s x j r f).trans (by rw [if_neg hflag, if_neg hx])

theorem answers_skipIf (s : State) (i : Instr) (b : Bool) : Answers s i (complete (skipIf b s)) := by
  cases b
  · exact ⟨_, rfl, .setsPc s.pc⟩
  · exact ⟨_, rfl, .setsPc (s.pc + 2)⟩

theorem foldl_storeReg_wf (l : List RegIdx) {s : State} (h : s.mem.wf) :
    (l.foldl storeReg s).mem.wf := by
  induction l generalizing s with
  | nil => exact h
  | cons i rest ih => exact ih (memWrite_wf h _ _)

/-! ### The instructions whose effect depends on the state -/

theorem execRet_of_nil {s : State} (h : s.stack = []) : execRet s = raise .stackUnderflow s := by
  rw [execRet, pop_eq_none.mpr h]

theorem execRet_of_concat {s : State} {rest : List Word} {w : Word} (h : s.stack = rest ++ [w]) :
    execRet s = complete (setPc { s with stack := rest } w) := by
  rw [execRet, pop_of_stack h]

theorem answers_ret (s : State) : Answers s .ret (execRet s) := by
  rcases List.eq_nil_or_concat' s.stack with h | ⟨rest, w, h⟩
  · exact ⟨_, execRet_of_nil h, .raises _ (.inr rfl)⟩
  · exact ⟨_, execRet_of_concat h, .pops rest w h⟩

theorem answers_call (s : State) (nnn : Addr12) : Answers s (.call nnn) (execCall nnn s) := by
  rw [execCall]
  split
  · exact ⟨_, rfl, .raises _ (.inl rfl)⟩
  · exact ⟨_, rfl, .pushes nnn (Nat.lt_of_not_le ‹_›)⟩

theorem answers_ldVxK (s : State) (x : RegIdx) : Answers s (.ldVxK x) (execLdVxK x s) := by
  rw [execLdVxK]
  split
  · rename_i k hk
    refine answers_writeReg x _ fun j hj => ?_
    simpa [writesReg, hk] using hj
  · exact ⟨_, rfl, .waits x⟩

theorem answers_drw (s : State) (x y : RegIdx) (n : Fin 16) :
    Answers s (.drw x y n) (execDrw x y n s) :=
  ⟨_, rfl, .plots x y n _ _ fun _ hj => readReg_writeReg_of_ne s _ (ne_of_beq_false hj)⟩

theorem answers_ldB (s : State) (x : RegIdx) : Answers s (.ldB x) (execLdB x s) :=
  ⟨_, rfl, .stores _ fun h => memWrite_wf (memWrite_wf (memWrite_wf h _ _) _ _) _ _⟩

theorem answers_stRegs (s : State) (x : RegIdx) : Answers s (.stRegs x) (execStRegs x s) := by
  rw [execStRegs, foldl_storeReg_frame]
  exact ⟨_, rfl, .stores _ (foldl_storeReg_wf _)⟩

theorem answers_ldRegs (s : State) (x : RegIdx) : Answers s (.ldRegs x) (execLdRegs x s) := by
  rw [execLdRegs, foldl_loadReg_frame]
  refine ⟨_, rfl, .setsRegs _ fun j hj => ?_⟩
  have hle : ¬ j ≤ x := of_decide_eq_false hj
  exact (readReg_foldl_loadReg (regsUpTo x) s j).trans (if_neg (mt mem_regsUpTo.mp hle))

/-! ### Every instruction and every step -/

/-- An instruction answers a next state on every path, with one of the effects above. -/
theorem exec_answers (i : Instr) (s : State) : Answers s i (exec i s) := by
  cases i with
  | cls => exact ⟨_, rfl, .clears _⟩
  | ret => exact answers_ret s
  | call nnn => exact answers_call s nnn
  | jp _ | jpV0 _ => exact ⟨_, rfl, .setsPc _⟩
  | seImm _ _ | sneImm _ _ | seReg _ _ | sneReg _ _ | skp _ | sknp _ => exact answers_skipIf s _ _
  | ldImm x _ | addImm x _ | ldVxDT x | ldReg x _ | orReg x _ | andReg x _ | xorReg x _ =>
    exact answers_writeReg x _ fun _ => ne_of_beq_false
  | addReg x _ | sub x _ | subn x _ | shr x _ | shl x _ =>
    exact answers_writeResultAndFlag x _ _ fun _ hj => by simpa [writesReg] using hj
  | rnd x kk =>
    exact ⟨_, rfl, .drawsByte x kk _ fun _ hj => readReg_writeReg_of_ne s _ (ne_of_beq_false hj)⟩
  | drw x y n => exact answers_drw s x y n
  | ldVxK x => exact answers_ldVxK s x
  | ldDTVx x => exact ⟨_, rfl, .setsDT x _⟩
  | ldSTVx x => exact ⟨_, rfl, .setsST x _⟩
  | ldI _ | addI _ | ldF _ => exact ⟨_, rfl, .setsIndex _ rfl⟩
  | ldB x => exact answers_ldB s x
  | stRegs x => exact answers_stRegs s x
  | ldRegs x => exact answers_ldRegs s x

theorem execEffect_of_exec {i : Instr} {s t : State} (h : exec i s = .next t) : ExecEffect s i t := by
  obtain ⟨u, hu, heff⟩ := exec_answers i s
  rw [h] at hu
  cases hu
  exact heff

/-- What a step can do: report Halted (R80), raise UnknownOpcode (R85), or execute an instruction on the
advanced state (R84). -/
inductive StepEffect (s : State) : State → Prop where
  | staysHalted (c : StepCondition) (hf : s.fault = some c) : StepEffect s (report .halted s)
  | unknownWord (e : DecodeError) (hf : s.fault = none) (hd : decode (fetch s) = .error e) :
      StepEffect s (raiseUnder unknownOpcodePolicy (.unknownOpcode (fetch s)) (advance s))
  | executes {t : State} (i : Instr) (hf : s.fault = none) (hd : decode (fetch s) = .ok i)
      (heff : ExecEffect (advance s) i t) : StepEffect s t

theorem step_of_fault {s : State} {c : StepCondition} (hf : s.fault = some c) :
    step s = stayHalted s := by rw [step, hf]

theorem step_of_decode_error {s : State} {e : DecodeError} (hf : s.fault = none)
    (hd : decode (fetch s) = .error e) : step s = raise (.unknownOpcode (fetch s)) (advance s) := by
  rw [step, hf]
  simp only [executeWord, hd]

theorem step_of_decode_ok {s : State} {i : Instr} (hf : s.fault = none)
    (hd : decode (fetch s) = .ok i) : step s = exec i (advance s) := by
  rw [step, hf]
  simp only [executeWord, hd]

/-- A step answers a next state on every path, with one of the effects above. -/
theorem exists_step_stepEffect (s : State) : ∃ t, step s = .next t ∧ StepEffect s t := by
  match hf : s.fault, hd : decode (fetch s) with
  | some c, _ => exact ⟨_, step_of_fault hf, .staysHalted c hf⟩
  | none, .error e => exact ⟨_, step_of_decode_error hf hd, .unknownWord e hf hd⟩
  | none, .ok i =>
    obtain ⟨t, ht, heff⟩ := exec_answers i (advance s)
    exact ⟨t, (step_of_decode_ok hf hd).trans ht, .executes i hf hd heff⟩

theorem stepEffect_of_step {s t : State} (h : step s = .next t) : StepEffect s t := by
  obtain ⟨u, hu, heff⟩ := exists_step_stepEffect s
  rw [h] at hu
  cases hu
  exact heff

end Sys2Proof.Machine

/-! SUPPORT. The invariant of the machine: it holds after reset and after every construction, and every step
and every host action keeps it. -/

namespace Sys2Proof

/-- A word that does not decode has no row in the opcode table (R76, R78). -/
theorem wordWellFormed_eq_false_of_decode_error {w : Word} {e : DecodeError}
    (h : decode w = .error e) : wordWellFormed w = false := by
  refine List.any_eq_false.mpr fun r hr hacc => ?_
  rw [accepts_iff_eq_selectorRow hr] at hacc
  obtain ⟨i, hi⟩ := exists_decode_of_selectorRow_mem (hacc ▸ hr)
  rw [h] at hi
  cases hi

end Sys2Proof

namespace Sys2Proof.Machine

/-- Without a fault and without a condition to report, memory and the call stack are all the invariant asks
for. -/
theorem State.Inv.of_unfaulted {t : State} (hmem : t.mem.wf) (hdepth : t.sp ≤ Config.stackDepth)
    (hfault : t.fault = none) (hout : t.outcome = .ok ∨ t.outcome = .keyWait) : t.Inv where
  memory := hmem
  depth := hdepth
  unknown w h := by simp [hfault] at h
  raised c h := by simp [h] at hout
  halted h := by simp [h] at hout

/-- The invariant speaks of memory, the call stack, `fault` and `outcome` alone. -/
theorem State.Inv.congr {s t : State} (hs : s.Inv) (hmem : t.mem = s.mem) (hstack : t.stack = s.stack)
    (hfault : t.fault = s.fault) (hout : t.outcome = s.outcome) : t.Inv where
  memory := hmem ▸ hs.memory
  depth := by rw [sp, hstack]; exact hs.depth
  unknown := hfault ▸ hs.unknown
  raised := by rw [hfault, hout]; exact hs.raised
  halted := by rw [hfault, hout]; exact hs.halted

theorem State.Inv.advance {s : State} (hs : s.Inv) : (advance s).Inv := hs.congr rfl rfl rfl rfl

/-! ### The three ends of a step -/

theorem State.Inv.report_halted {s : State} {c : StepCondition} (hs : s.Inv) (hf : s.fault = some c) :
    (report .halted s).Inv where
  memory := hs.memory
  depth := hs.depth
  unknown := hs.unknown
  raised _ h := by cases h
  halted _ := by simp [hf]

/-- Raising a condition without a fault: a halting one stands in `fault` (R229), and UnknownOpcode halts
under Halt alone (R230). -/
theorem State.Inv.raiseUnder {s : State} {c : StepCondition} (hs : s.Inv) (hf : s.fault = none)
    (hc : ∀ w, c = .unknownOpcode w → wordWellFormed w = false) :
    (raiseUnder unknownOpcodePolicy c s).Inv where
  memory := hs.memory
  depth := hs.depth
  unknown w h := by
    rw [raiseUnder_fault, hf] at h
    split_ifs at h with hhalt
    cases h
    exact ⟨eq_of_beq hhalt, hc w rfl⟩
  raised d h hhalt := by
    cases h
    exact if_pos hhalt
  halted h := by cases h

/-- An instruction executed without a fault keeps the invariant. -/
theorem ExecEffect.inv {s t : State} {i : Instr} (h : ExecEffect s i t) (hs : s.Inv)
    (hf : s.fault = none) : t.Inv := by
  cases h with
  | raises c hc => exact hs.raiseUnder hf fun w hw => by simp [hw] at hc
  | stores m hm => exact .of_unfaulted (hm hs.memory) hs.depth hf (.inl rfl)
  | pushes nnn hsp =>
    refine .of_unfaulted hs.memory ?_ hf (.inl rfl)
    rw [State.sp, List.length_append]
    exact hsp
  | pops rest w hstack =>
    have hdepth := hs.depth
    rw [State.sp, hstack, List.length_append] at hdepth
    exact .of_unfaulted hs.memory (Nat.le_of_succ_le hdepth) hf (.inl rfl)
  | waits x => exact .of_unfaulted hs.memory hs.depth hf (.inr rfl)
  | _ => exact .of_unfaulted hs.memory hs.depth hf (.inl rfl)

theorem StepEffect.inv {s t : State} (h : StepEffect s t) (hs : s.Inv) : t.Inv := by
  cases h with
  | staysHalted c hf => exact hs.report_halted hf
  | unknownWord e hf hd =>
    refine hs.advance.raiseUnder hf fun w hw => ?_
    cases hw
    exact wordWellFormed_eq_false_of_decode_error hd
  | executes i hf hd heff => exact heff.inv hs.advance hf

/-- Settles O55, by a case split on what a step can do. -/
theorem everyStepKeepsInv : Obligations.EveryStepKeepsInv :=
  fun _ _ hs h => (stepEffect_of_step h).inv hs

/-- Settles O57: a step always answers, and a host action touches no field the invariant speaks of. -/
theorem everyEventKeepsInv : Obligations.EveryEventKeepsInv := by
  intro s e hs
  cases e with
  | step =>
    obtain ⟨t, ht, heff⟩ := exists_step_stepEffect s
    exact ⟨t, ht, heff.inv hs⟩
  | setKey k b => exact ⟨_, rfl, hs.congr rfl rfl rfl rfl⟩
  | timerTick => exact ⟨_, rfl, hs.congr rfl rfl rfl rfl⟩

/-! ### Reset and construction -/

/-- Settles O54: memory lists nothing, the stack is empty, no fault, outcome Ok. -/
theorem invHoldsAtReset : Obligations.InvHoldsAtReset :=
  .of_unfaulted reset_memory_wf (Nat.zero_le _) rfl (.inl rfl)

theorem State.Inv.memWrite {s : State} (hs : s.Inv) (a : Nat) (b : Byte) : (memWrite s a b).Inv :=
  { hs with memory := memWrite_wf hs.memory a b }

theorem State.Inv.storeBytes {s : State} (hs : s.Inv) (a : Nat) (bytes : List Byte) :
    (storeBytes s a bytes).Inv := by
  induction bytes generalizing s a with
  | nil => exact hs
  | cons b rest ih => exact ih (hs.memWrite a b) (a + 1)

/-- Settles O58, by induction over the image. -/
theorem everyConstructionMeetsInv : Obligations.EveryConstructionMeetsInv := by
  intro image seed s h
  have hreset : ({ State.reset with seed := seed } : State).Inv :=
    invHoldsAtReset.congr rfl rfl rfl rfl
  rw [construct] at h
  split at h
  · cases h
    exact hreset.storeBytes Config.loadBase image
  · cases h

/-! ### The state after reset (R42, R260) -/

theorem memRead_reset {a : Nat} (ha : a < 4096) : memRead State.reset a = constructionByte a :=
  congrArg constructionByte (Nat.mod_eq_of_lt ha)

theorem constructionByte_font (j : Fin 80) : constructionByte (80 + j.val) = Config.font j := by
  rw [constructionByte, dif_pos ⟨Nat.le_add_right 80 _, Nat.add_lt_add_left j.isLt 80⟩]
  simp

theorem constructionByte_of_not_font {a : Nat} (ha : a < 80 ∨ 160 ≤ a) : constructionByte a = 0 :=
  dif_neg (by simp only [Config.fontBase, Config.fontSize]; omega)

/-- Settles O49: an empty memory reads as its construction contents. -/
theorem resetLeavesTheConstructionState : Obligations.ResetLeavesTheConstructionState := by
  refine ⟨rfl, rfl, rfl, rfl, rfl, rfl, rfl, by decide, fbCell_clear, by decide, fun j => ?_,
    fun a ha hout => ?_⟩
  · rw [memRead_reset (by omega), constructionByte_font]
  · rw [memRead_reset ha, constructionByte_of_not_font hout]
    rfl

end Sys2Proof.Machine

/-! SUPPORT. What a step leaves alone (10_state.md sections 3, 6, 7 and 8): a field that a step changed names
the instruction that was executed. -/

namespace Sys2Proof.Machine

/-- A field other than pc, `fault` and `outcome` is changed by an executed instruction only. -/
theorem exists_execEffect_of_field_ne {α : Type} (f : State → α)
    (hframe : ∀ u pc fault outcome, f { u with pc := pc, fault := fault, outcome := outcome } = f u)
    {s t : State} (h : step s = .next t) (hne : f t ≠ f s) :
    ∃ i, decode (fetch s) = .ok i ∧ ExecEffect (advance s) i t ∧ f t ≠ f (advance s) := by
  have hadvance : f (advance s) = f s := hframe s _ s.fault s.outcome
  cases stepEffect_of_step h with
  | staysHalted c hf => exact absurd (hframe s s.pc s.fault .halted) hne
  | unknownWord e hf hd => exact absurd (hframe s _ _ _) hne
  | executes i hf hd heff => exact ⟨i, hd, heff, hadvance ▸ hne⟩

/-- Settles O42: setting `I` is the only effect that changes `I`. -/
theorem onlyThreeInstructionsWriteI : Obligations.OnlyThreeInstructionsWriteI := by
  intro s t h hne
  obtain ⟨i, hd, heff, hne⟩ := exists_execEffect_of_field_ne State.I (fun _ _ _ _ => rfl) h hne
  cases heff with
  | setsIndex w hi => exact ⟨i, hd, hi⟩
  | _ => exact absurd rfl hne

/-- Settles O43: each timer has one effect that changes it. -/
theorem stepsChangeTimersOnlyByFx15AndFx18 : Obligations.StepsChangeTimersOnlyByFx15AndFx18 := by
  refine fun s t h => ⟨fun hne => ?_, fun hne => ?_⟩
  · obtain ⟨i, hd, heff, hne⟩ := exists_execEffect_of_field_ne State.dt (fun _ _ _ _ => rfl) h hne
    cases heff with
    | setsDT x b => exact ⟨x, hd⟩
    | _ => exact absurd rfl hne
  · obtain ⟨i, hd, heff, hne⟩ := exists_execEffect_of_field_ne State.st (fun _ _ _ _ => rfl) h hne
    cases heff with
    | setsST x b => exact ⟨x, hd⟩
    | _ => exact absurd rfl hne

/-- Settles O44: clearing and plotting are the only effects that change the framebuffer. -/
theorem stepsChangeTheScreenOnlyByClearAndDraw :
    Obligations.StepsChangeTheScreenOnlyByClearAndDraw := by
  intro s t h hne
  obtain ⟨i, hd, heff, hne⟩ := exists_execEffect_of_field_ne State.fb (fun _ _ _ _ => rfl) h hne
  cases heff with
  | clears fb => exact .inl hd
  | plots x y n fb v hv => exact .inr ⟨x, y, n, hd⟩
  | _ => exact absurd rfl hne

theorem step_seed {s t : State} (h : step s = .next t) : t.seed = s.seed := by
  by_contra hne
  obtain ⟨i, -, heff, hne⟩ := exists_execEffect_of_field_ne State.seed (fun _ _ _ _ => rfl) h hne
  cases heff <;> exact hne rfl

/-- Settles O46: Cxkk draws by its meaning, and no other effect changes the count of draws. -/
theorem stepsDrawOnlyByCxkk : Obligations.StepsDrawOnlyByCxkk := by
  refine fun s t h => ⟨step_seed h, fun ⟨hf, x, kk, hd⟩ => ?_, fun hno => ?_⟩
  · rw [step_of_decode_ok hf hd] at h
    cases h
    rfl
  · cases stepEffect_of_step h with
    | staysHalted | unknownWord => rfl
    | executes i hf hd heff =>
      cases heff with
      | drawsByte x kk v hv => exact absurd ⟨hf, x, kk, hd⟩ hno
      | _ => rfl

/-! ### A faulted machine (R37, R249) -/

/-- An event on a faulted machine answers, and changes at most the timers, the latch and the report. -/
theorem runEvent_of_fault {s : State} {c : StepCondition} (hf : s.fault = some c) (e : Event) :
    ∃ dt st keys outcome,
      runEvent s e = .next { s with dt := dt, st := st, keys := keys, outcome := outcome } := by
  cases e with
  | step => exact ⟨s.dt, s.st, s.keys, .halted, step_of_fault hf⟩
  | setKey k b => exact ⟨s.dt, s.st, s.keys.set k b, s.outcome, rfl⟩
  | timerTick => exact ⟨tickTimer s.dt, tickTimer s.st, s.keys, s.outcome, rfl⟩

/-- Settles O53, by induction on the events. -/
theorem faultIsNeverCleared : Obligations.FaultIsNeverCleared := by
  intro s t c events hf h
  induction events generalizing s with
  | nil => cases h; rfl
  | cons e rest ih =>
    obtain ⟨dt, st, keys, outcome, he⟩ := runEvent_of_fault hf e
    rw [runEvents, he] at h
    exact ih { s with dt := dt, st := st, keys := keys, outcome := outcome } hf h

end Sys2Proof.Machine

/-! SUPPORT. What the registers influence (10_state.md section 2): the "writes" column of the spec's table, and
the "reads" column as noninterference between two states that differ in their register files alone. -/

namespace Sys2Proof.Machine

/-- Settles O39: every effect on the register file keeps the unwritten registers. -/
theorem onlyTheListedRegistersAreWritten : Obligations.OnlyTheListedRegistersAreWritten := by
  intro i s t h j hj
  cases execEffect_of_exec h with
  | setsRegs v hv | drawsByte x kk v hv | plots x y n fb v hv => exact hv j hj
  | _ => rfl

/-- Two results that are next states, equal in all fields but the registers and in every register that `W`
marks as written. -/
def SameChange (W : RegIdx → Bool) (r r' : Result) : Prop :=
  ∃ t t', r = .next t ∧ r' = .next t' ∧ t' = { t with v := t'.v } ∧
    ∀ j, W j = true → readReg t' j = readReg t j

section
variable {W : RegIdx → Bool} {s : State} {v : Vector Byte 16}

/-! ### One rule per way of ending: write nothing, write Vx, write Vx and VF -/

theorem sameChange_next (hW : ∀ j, W j = false) {t t' : State} (ht : t' = { t with v := t'.v }) :
    SameChange W (.next t) (.next t') :=
  ⟨t, t', rfl, rfl, ht, fun j hj => by simp [hW] at hj⟩

/-- An update `g` that does not touch the registers, of an operand that both states read alike. -/
theorem sameChange_update {β : Type} (hW : ∀ j, W j = false) (g : β → State → State)
    (hg : ∀ b, g b { s with v := v } = { g b s with v := v }) {b b' : β} (hb : b' = b) :
    SameChange W (complete (g b s)) (complete (g b' { s with v := v })) := by
  rw [hb, hg]
  exact sameChange_next hW rfl

theorem sameChange_writeReg {x : RegIdx} (hW : ∀ j, W j = true → j = x) {b b' : Byte} (hb : b' = b) :
    SameChange W (complete (writeReg s x b)) (complete (writeReg { s with v := v } x b')) := by
  refine ⟨_, _, rfl, rfl, rfl, fun j hj => ?_⟩
  rw [report_readReg, report_readReg, hW j hj, readReg_writeReg_self, readReg_writeReg_self, hb]

theorem sameChange_writeResultAndFlag {x : RegIdx}
    (hW : ∀ j, W j = true → j = x ∨ j = Config.flagReg) {r r' : Byte} {f f' : Bool} (hr : r' = r)
    (hf : f' = f) :
    SameChange W (complete (writeResultAndFlag s x r f))
      (complete (writeResultAndFlag { s with v := v } x r' f')) := by
  refine ⟨_, _, rfl, rfl, rfl, fun j hj => ?_⟩
  rw [report_readReg, report_readReg, readReg_writeResultAndFlag, readReg_writeResultAndFlag, hr, hf]
  rcases hW j hj with rfl | rfl
  · simp only [if_true]
  · simp only [if_true]

/-! ### The shared operations commute with a change of the register file -/

theorem skipIf_regs (b : Bool) : skipIf b { s with v := v } = { skipIf b s with v := v } := by
  cases b <;> rfl

theorem foldl_storeReg_regs (l : List RegIdx)
    (h : ∀ i ∈ l, readReg { s with v := v } i = readReg s i) :
    l.foldl storeReg { s with v := v } = { l.foldl storeReg s with v := v } := by
  induction l generalizing s with
  | nil => rfl
  | cons i rest ih =>
    have hstore : storeReg { s with v := v } i = { storeReg s i with v := v } := by
      rw [storeReg, h i (by simp)]
      rfl
    rw [List.foldl_cons, hstore]
    exact ih fun j hj => h j (by simp [hj])

/-! ### The instructions whose effect depends on more than one operand -/

theorem sameChange_ret (hW : ∀ j, W j = false) :
    SameChange W (execRet s) (execRet { s with v := v }) := by
  rcases List.eq_nil_or_concat' s.stack with h | ⟨rest, w, h⟩
  · rw [execRet_of_nil h, execRet_of_nil (s := { s with v := v }) h]
    exact sameChange_next hW rfl
  · rw [execRet_of_concat h, execRet_of_concat (s := { s with v := v }) h]
    exact sameChange_next hW rfl

theorem sameChange_call (hW : ∀ j, W j = false) (nnn : Addr12) :
    SameChange W (execCall nnn s) (execCall nnn { s with v := v }) := by
  have hsp : State.sp { s with v := v } = s.sp := rfl
  rw [execCall, execCall, hsp]
  split
  · exact sameChange_next hW rfl
  · exact sameChange_next hW rfl

theorem sameChange_ldVxK (x : RegIdx) :
    SameChange (writesReg s (.ldVxK x)) (execLdVxK x s) (execLdVxK x { s with v := v }) := by
  have hkeys : lowestPressed { s with v := v } = lowestPressed s := rfl
  rw [execLdVxK, execLdVxK, hkeys]
  split
  · exact sameChange_writeReg (fun j hj => by simp_all [writesReg]) rfl
  · exact sameChange_next (fun j => by simp_all [writesReg]) rfl

theorem sameChange_drw {x y : RegIdx} (n : Fin 16) (hW : ∀ j, W j = true → j = Config.flagReg)
    (hx : readReg { s with v := v } x = readReg s x) (hy : readReg { s with v := v } y = readReg s y) :
    SameChange W (execDrw x y n s) (execDrw x y n { s with v := v }) := by
  rw [execDrw, execDrw, hx, hy]
  exact sameChange_writeReg hW rfl

theorem sameChange_ldB {x : RegIdx} (hW : ∀ j, W j = false)
    (hx : readReg { s with v := v } x = readReg s x) :
    SameChange W (execLdB x s) (execLdB x { s with v := v }) := by
  rw [execLdB, execLdB, hx]
  exact sameChange_next hW rfl

theorem sameChange_stRegs {x : RegIdx} (hW : ∀ j, W j = false)
    (h : ∀ j ≤ x, readReg { s with v := v } j = readReg s j) :
    SameChange W (execStRegs x s) (execStRegs x { s with v := v }) := by
  rw [execStRegs, execStRegs, foldl_storeReg_regs _ fun j hj => h j (mem_regsUpTo.mp hj)]
  exact sameChange_next hW rfl

theorem sameChange_ldRegs {x : RegIdx} (hW : ∀ j, W j = true → j ≤ x) :
    SameChange W (execLdRegs x s) (execLdRegs x { s with v := v }) := by
  refine ⟨_, _, rfl, rfl, ?_, fun j hj => ?_⟩
  · rw [foldl_loadReg_frame _ s, foldl_loadReg_frame _ { s with v := v }]
    rfl
  · have hmem : j ∈ regsUpTo x := mem_regsUpTo.mpr (hW j hj)
    rw [report_readReg, report_readReg, readReg_foldl_loadReg, readReg_foldl_loadReg, if_pos hmem,
      if_pos hmem]
    rfl

end

/-- An instruction makes the same change whatever the registers outside its "reads" column hold. -/
theorem sameChange_exec (i : Instr) (s : State) (v : Vector Byte 16)
    (h : ∀ j, readsReg i j = true → readReg { s with v := v } j = readReg s j) :
    SameChange (writesReg s i) (exec i s) (exec i { s with v := v }) := by
  cases i with
  | cls =>
    exact sameChange_update (fun _ => rfl) (fun (_ : Unit) s => clearFb s) (fun _ => rfl) (b := ()) rfl
  | ret => exact sameChange_ret fun _ => rfl
  | jp nnn =>
    exact sameChange_update (fun _ => rfl) (fun w s => setPc s w) (fun _ => rfl) rfl
  | call nnn => exact sameChange_call (fun _ => rfl) nnn
  | seImm x kk | sneImm x kk =>
    exact sameChange_update (fun _ => rfl) skipIf skipIf_regs (by rw [h x (beq_self_eq_true x)])
  | seReg x y | sneReg x y =>
    exact sameChange_update (fun _ => rfl) skipIf skipIf_regs
      (by rw [h x (by simp [readsReg]), h y (by simp [readsReg])])
  | ldImm x kk | ldVxDT x => exact sameChange_writeReg (fun _ => eq_of_beq) rfl
  | addImm x kk =>
    exact sameChange_writeReg (fun _ => eq_of_beq) (by rw [h x (beq_self_eq_true x)])
  | ldReg x y => exact sameChange_writeReg (fun _ => eq_of_beq) (h y (beq_self_eq_true y))
  | orReg x y | andReg x y | xorReg x y =>
    exact sameChange_writeReg (fun _ => eq_of_beq)
      (by rw [h x (by simp [readsReg]), h y (by simp [readsReg])])
  | addReg x y | sub x y | subn x y =>
    have hx := h x (by simp [readsReg])
    have hy := h y (by simp [readsReg])
    exact sameChange_writeResultAndFlag (fun _ => by simp [writesReg]) (by rw [hx, hy]) (by rw [hx, hy])
  | shr x y | shl x y =>
    have hx := h x (beq_self_eq_true x)
    exact sameChange_writeResultAndFlag (fun _ => by simp [writesReg]) (by rw [hx]) (by rw [hx])
  | ldI nnn =>
    exact sameChange_update (fun _ => rfl) (fun w s => setI s w) (fun _ => rfl) rfl
  | jpV0 nnn =>
    exact sameChange_update (fun _ => rfl) (fun b s => setPc s (zext16 b + zext16 nnn))
      (fun _ => rfl) (h 0 rfl)
  | rnd x kk => exact sameChange_writeReg (s := (randomByte s).2) (fun _ => eq_of_beq) rfl
  | drw x y n =>
    exact sameChange_drw n (fun _ => eq_of_beq) (h x (by simp [readsReg])) (h y (by simp [readsReg]))
  | skp x | sknp x =>
    exact sameChange_update (fun _ => rfl) skipIf skipIf_regs
      (by rw [h x (beq_self_eq_true x)]; rfl)
  | ldVxK x => exact sameChange_ldVxK x
  | ldDTVx x =>
    exact sameChange_update (fun _ => rfl) (fun b s => setDT s b) (fun _ => rfl)
      (h x (beq_self_eq_true x))
  | ldSTVx x =>
    exact sameChange_update (fun _ => rfl) (fun b s => setST s b) (fun _ => rfl)
      (h x (beq_self_eq_true x))
  | addI x =>
    exact sameChange_update (fun _ => rfl) (fun b s => setI s (s.I + zext16 b)) (fun _ => rfl)
      (h x (beq_self_eq_true x))
  | ldF x =>
    exact sameChange_update (fun _ => rfl) (fun b s => setI s (glyphAddr b)) (fun _ => rfl)
      (h x (beq_self_eq_true x))
  | ldB x => exact sameChange_ldB (fun _ => rfl) (h x (beq_self_eq_true x))
  | stRegs x =>
    exact sameChange_stRegs (fun _ => rfl) fun j hj => h j (decide_eq_true hj)
  | ldRegs x => exact sameChange_ldRegs fun _ => of_decide_eq_true

/-- Settles O40, by the instructions' own noninterference with `s'` as `s` with another register file. -/
theorem onlyTheListedRegistersAreRead : Obligations.OnlyTheListedRegistersAreRead := by
  intro i s s' hs h
  rw [hs] at h ⊢
  exact sameChange_exec i s s'.v h

end Sys2Proof.Machine

/-! SUPPORT. Memory (20_memory.md): every step answers, fetch wraps at the top of memory, and an instruction
stores only where the spec's table of memory accesses lets it (R58). -/

namespace Sys2Proof.Machine

/-- Settles O10: every instruction and every step answers with one of its effects. -/
theorem everyStepAnswersANextState : Obligations.EveryStepAnswersANextState := by
  refine ⟨fun s => ?_, fun i s => ?_⟩
  · obtain ⟨t, ht, -⟩ := exists_step_stepEffect s
    exact ⟨t, ht⟩
  · obtain ⟨t, ht, -⟩ := exec_answers i s
    exact ⟨t, ht⟩

/-! ### Fetch -/

/-- Fetch reads at any address `a` that is `pc` modulo 4096, and at the one after it (R54, R57). -/
theorem fetch_of_memAddr {s : State} {a : Nat} (h : memAddr s.pc.toNat = memAddr a) :
    fetch s = wordOfBytes (memRead s a) (memRead s (a + 1)) := by
  have hsucc : memAddr (s.pc.toNat + 1) = memAddr (a + 1) := Nat.ModEq.add_right 1 h
  simp only [fetch, memRead, h, hsucc]

theorem fetch_setPc_of_memAddr (s : State) {w : Word} (h : memAddr w.toNat = memAddr s.pc.toNat) :
    fetch (setPc s w) = fetch s :=
  fetch_of_memAddr (s := setPc s w) h

/-- 4096 divides 2^16, so the wrap of `pc` does not move the address that it reaches. -/
theorem memAddr_pc_add_memSize (pc : Word) : memAddr (pc + 4096).toNat = memAddr pc.toNat := by
  simp only [memAddr, Config.memSize, BitVec.toNat_add, BitVec.reduceToNat]
  omega

/-- Settles O12: fetch reaches memory at `pc` and `pc + 1` modulo 4096. -/
theorem fetchWrapsAtTheTopOfMemory : Obligations.FetchWrapsAtTheTopOfMemory := by
  intro s
  constructor
  · exact fetch_setPc_of_memAddr s (memAddr_pc_add_memSize s.pc)
  · exact fetch_of_memAddr (a := 4095)

/-! ### Stores -/

theorem skipIf_memRead (b : Bool) (s : State) (a : Nat) : memRead (skipIf b s) a = memRead s a := by
  cases b <;> rfl

section
variable {s t : State} {a : Nat}

theorem memRead_of_execRet (h : execRet s = .next t) : memRead t a = memRead s a := by
  rcases List.eq_nil_or_concat' s.stack with hs | ⟨rest, w, hs⟩
  · rw [execRet_of_nil hs] at h
    cases h
    rfl
  · rw [execRet_of_concat hs] at h
    cases h
    rfl

theorem memRead_of_execCall {nnn : Addr12} (h : execCall nnn s = .next t) :
    memRead t a = memRead s a := by
  rw [execCall] at h
  split at h
  · cases h; rfl
  · cases h; rfl

theorem memRead_of_execLdVxK {x : RegIdx} (h : execLdVxK x s = .next t) :
    memRead t a = memRead s a := by
  rw [execLdVxK] at h
  split at h
  · cases h; rfl
  · cases h; rfl

theorem memRead_of_execLdRegs {x : RegIdx} (h : execLdRegs x s = .next t) :
    memRead t a = memRead s a := by
  rw [execLdRegs, foldl_loadReg_frame] at h
  cases h
  rfl

theorem memRead_of_execLdB {x : RegIdx} (h : execLdB x s = .next t)
    (ha : ∀ b ∈ storedAddrs s (.ldB x), memAddr a ≠ memAddr b) : memRead t a = memRead s a := by
  cases h
  rw [report_memRead, memRead_memWrite, if_neg (ha _ (by simp [storedAddrs])), memRead_memWrite,
    if_neg (ha _ (by simp [storedAddrs])), memRead_memWrite, if_neg (ha _ (by simp [storedAddrs]))]

theorem memRead_of_execStRegs {x : RegIdx} (h : execStRegs x s = .next t)
    (ha : ∀ b ∈ storedAddrs s (.stRegs x), memAddr a ≠ memAddr b) : memRead t a = memRead s a := by
  cases h
  exact memRead_foldl_storeReg_of_ne _ s a fun i hi => ha _ (List.mem_map_of_mem hi)

/-- An instruction keeps every byte outside its addresses in the spec's table (R58). -/
theorem memRead_of_exec {i : Instr} (h : exec i s = .next t)
    (ha : ∀ b ∈ storedAddrs s i, memAddr a ≠ memAddr b) : memRead t a = memRead s a := by
  cases i with
  | ldB x => exact memRead_of_execLdB h ha
  | stRegs x => exact memRead_of_execStRegs h ha
  | ret => exact memRead_of_execRet h
  | call nnn => exact memRead_of_execCall h
  | ldVxK x => exact memRead_of_execLdVxK h
  | ldRegs x => exact memRead_of_execLdRegs h
  | seImm _ _ | sneImm _ _ | seReg _ _ | sneReg _ _ | skp _ | sknp _ =>
    cases h
    exact skipIf_memRead _ s a
  | _ =>
    cases h
    rfl

end

/-- Settles O41: no instruction but Fx33 and Fx55 touches memory, and these two store at their listed
addresses. -/
theorem onlyTheListedAddressesAreStoredTo : Obligations.OnlyTheListedAddressesAreStoredTo := by
  refine ⟨fun i s t h a ha => memRead_of_exec h ha, fun i s hne => ?_⟩
  cases i with
  | ldB x => exact .inl ⟨x, rfl⟩
  | stRegs x => exact .inr ⟨x, rfl⟩
  | _ => exact absurd rfl hne

end Sys2Proof.Machine

/-! SUPPORT. Encoding and decoding are inverse to each other (30_encoding.md R71 to R76), and which words decode
to nothing (R77): the `op` of a word is its class, and within a class one field selects. -/

namespace Sys2Proof

/-! ### Decoding what an instruction encodes to -/

/-- Settles O1: an encoded word has the fields it was built from, and its `op` and selecting field lead to
the instruction's own arm, class by class. -/
theorem decodeOfEncodeIsTheInstruction : Obligations.DecodeOfEncodeIsTheInstruction := by
  intro i
  cases i with
  | cls | ret => rfl
  | jp nnn | call nnn | ldI nnn | jpV0 nnn => simp [encode, decode]
  | seImm x kk | sneImm x kk | ldImm x kk | addImm x kk | rnd x kk => simp [encode, decode]
  | seReg x y | sneReg x y | drw x y n => simp [encode, decode]
  | ldReg x y | orReg x y | andReg x y | xorReg x y | addReg x y | sub x y | subn x y | shr x y
  | shl x y => simp [encode, decode, decodeClass8]
  | skp x | sknp x => simp [encode, decode, decodeClassE]
  | ldVxDT x | ldVxK x | ldDTVx x | ldSTVx x | addI x | ldF x | ldB x | stRegs x | ldRegs x =>
    simp [encode, decode, decodeClassF]

/-! ### Encoding what a word decodes to -/

theorem encodeNNN_of_op {w : Word} {op : BitVec 4} (hop : opField w = op) :
    encodeNNN op (nnnField w) = w := by
  rw [← hop, encodeNNN_fields]

/-- With the selecting byte known, `op` and the register give the word back. -/
theorem encodeXKK_of_op_kk {w : Word} {op : BitVec 4} {kk : Byte} (hop : opField w = op)
    (hkk : kkField w = kk) : encodeXKK op (xField w) kk = w := by
  rw [← hop, ← hkk, encodeXKK_fields]

/-- With the selecting nibble known, `op` and the two registers give the word back. -/
theorem encodeXYN_of_op_n {w : Word} {op n : BitVec 4} (hop : opField w = op) (hn : nField w = n) :
    encodeXYN op (xField w) (yField w) n = w := by
  rw [← hop, ← hn, encodeXYN_fields]

theorem encode_of_decodeClass0 {w : Word} {i : Instr} (h : decodeClass0 w = .ok i) :
    encode i = w := by
  unfold decodeClass0 at h
  split_ifs at h with hcls hret
  · cases h; exact hcls.symm
  · cases h; exact hret.symm

theorem encode_of_decodeClass8 {w : Word} {i : Instr} (hop : opField w = 0x8#4)
    (h : decodeClass8 w = .ok i) : encode i = w := by
  unfold decodeClass8 at h
  split at h <;> cases h
  all_goals rename_i hn; exact encodeXYN_of_op_n hop hn

theorem encode_of_decodeClassE {w : Word} {i : Instr} (hop : opField w = 0xE#4)
    (h : decodeClassE w = .ok i) : encode i = w := by
  unfold decodeClassE at h
  split at h <;> cases h
  all_goals rename_i hkk; exact encodeXKK_of_op_kk hop hkk

theorem encode_of_decodeClassF {w : Word} {i : Instr} (hop : opField w = 0xF#4)
    (h : decodeClassF w = .ok i) : encode i = w := by
  unfold decodeClassF at h
  split at h <;> cases h
  all_goals rename_i hkk; exact encodeXKK_of_op_kk hop hkk

/-- Settles O2, by the class of the word: in the format of its class, the fields give the word back. -/
theorem encodeOfDecodeIsTheWord : Obligations.EncodeOfDecodeIsTheWord := by
  intro w i h
  unfold decode at h
  split at h -- `h_k` is the class of `op` k - 1
  case h_1 hop => exact encode_of_decodeClass0 h
  case h_2 hop | h_3 hop | h_11 hop | h_12 hop => cases h; exact encodeNNN_of_op hop
  case h_4 hop | h_5 hop | h_7 hop | h_8 hop | h_13 hop => cases h; exact encodeXKK_of_op_kk hop rfl
  case h_6 hop | h_10 hop =>
    split_ifs at h with hn
    cases h; exact encodeXYN_of_op_n hop hn
  case h_9 hop => exact encode_of_decodeClass8 hop h
  case h_14 hop => cases h; exact encodeXYN_of_op_n hop rfl
  case h_15 hop => exact encode_of_decodeClassE hop h
  case h_16 hop => exact encode_of_decodeClassF hop h
  case h_17 => cases h

/-! ### The fields of a word as arithmetic (R71) -/

theorem toNat_opField (w : Word) : (opField w).toNat = w.toNat / 4096 := by
  rw [opField, BitVec.extractLsb'_toNat, Nat.shiftRight_eq_div_pow]
  exact Nat.mod_eq_of_lt (Nat.div_lt_of_lt_mul w.isLt)

theorem toNat_nField (w : Word) : (nField w).toNat = w.toNat % 16 := BitVec.extractLsb'_toNat ..

theorem toNat_kkField (w : Word) : (kkField w).toNat = w.toNat % 256 := BitVec.extractLsb'_toNat ..

/-! ### The words that a class does not decode (R77) -/

theorem decodeClass0_eq_unknown_iff (w : Word) :
    decodeClass0 w = .error (.unknownOpcode w) ↔ w.toNat ≠ 0x00E0 ∧ w.toNat ≠ 0x00EE := by
  unfold decodeClass0
  split_ifs with hcls hret
  · simp [hcls]
  · simp [hret]
  · exact iff_of_true rfl ⟨BitVec.toNat_ne.mp hcls, BitVec.toNat_ne.mp hret⟩

theorem decodeClass8_eq_unknown_iff (w : Word) :
    decodeClass8 w = .error (.unknownOpcode w) ↔
      (nField w).toNat ∈ [8, 9, 10, 11, 12, 13, 15] := by
  unfold decodeClass8
  split
  case h_10 =>
    refine iff_of_true rfl ?_
    generalize nField w = n at *
    decide +revert
  all_goals rename_i hn; simp [hn]

theorem decodeClassE_eq_unknown_iff (w : Word) :
    decodeClassE w = .error (.unknownOpcode w) ↔ (kkField w).toNat ∉ [0x9E, 0xA1] := by
  unfold decodeClassE
  split
  case h_3 => simp_all [← BitVec.toNat_inj]
  all_goals rename_i hkk; simp [hkk]

theorem decodeClassF_eq_unknown_iff (w : Word) :
    decodeClassF w = .error (.unknownOpcode w) ↔
      (kkField w).toNat ∉ [0x07, 0x0A, 0x15, 0x18, 0x1E, 0x29, 0x33, 0x55, 0x65] := by
  unfold decodeClassF
  split
  case h_10 => simp_all [← BitVec.toNat_inj]
  all_goals rename_i hkk; simp [hkk]

/-- Settles O4: the word's `op` is its class, whose selecting field decides; the classes that the table does not
list decode every word. -/
theorem unknownWordsAreThoseListedByClass : Obligations.UnknownWordsAreThoseListedByClass := by
  intro w
  rw [← toNat_opField, ← toNat_nField, ← toNat_kkField]
  unfold decode
  split -- `h_k` is the class of `op` k - 1
  case h_1 hop => simp [hop, decodeClass0_eq_unknown_iff]
  case h_6 hop | h_10 hop => simp [hop, ← BitVec.toNat_inj]
  case h_9 hop => simp [hop, decodeClass8_eq_unknown_iff]
  case h_15 hop => simp [hop, decodeClassE_eq_unknown_iff]
  case h_16 hop => simp [hop, decodeClassF_eq_unknown_iff]
  case h_17 => -- `op` has four bits
    exfalso
    simp only [imp_false] at *
    bv_omega
  all_goals rename_i hop; simp [hop]

/-! ### Words from bytes (R56, R81) -/

theorem toNat_wordOfBytes (hi lo : Byte) : (wordOfBytes hi lo).toNat = hi.toNat * 256 + lo.toNat := by
  rw [wordOfBytes, BitVec.toNat_append, ← Nat.shiftLeft_add_eq_or_of_lt lo.isLt, Nat.shiftLeft_eq]

theorem decode_wordOfBytes_of_decodeBytes {hi lo : Byte} {bytes rest : List Byte} {i : Instr}
    (h : decodeBytes (hi :: lo :: bytes) = .ok (i, rest)) : decode (wordOfBytes hi lo) = .ok i := by
  rw [decodeBytes] at h
  split at h
  · cases h; assumption
  · cases h

end Sys2Proof

/-! SUPPORT. The step around an instruction (30_encoding.md section 6): fetch, and the three ways a step goes. -/

namespace Sys2Proof.Machine

/-- Settles O6: fetch is the word of the bytes at `pc` and `pc + 1`. -/
theorem fetchIsHighByteFirst : Obligations.FetchIsHighByteFirst := fun _ => toNat_wordOfBytes _ _

/-- Settles O7: the bytes that decode are the fetched word's. -/
theorem stepRunsTheDecodedInstruction : Obligations.StepRunsTheDecodedInstruction :=
  fun _ _ hf h => step_of_decode_ok hf (decode_wordOfBytes_of_decodeBytes h)

/-- UnknownOpcode halts under the policy Halt alone (R230). -/
theorem haltsUnder_unknownOpcode (p : Config.UnknownOpcodePolicy) (w : Word) :
    haltsUnder p (.unknownOpcode w) = true ↔ p = .halt := beq_iff_eq

/-- Settles O8: such a step raises UnknownOpcode on the advanced state. -/
theorem unknownWordOnlyAdvances : Obligations.UnknownWordOnlyAdvances := by
  intro s e hf hd
  rw [step_of_decode_error hf hd, raise_eq_next, raiseUnder_frame]
  simp [haltsUnder_unknownOpcode, forward, hf]

/-- Settles O9: a faulted machine stays halted. -/
theorem stepOnFaultedMachineReportsHalted : Obligations.StepOnFaultedMachineReportsHalted :=
  fun _ _ hf => step_of_fault hf

end Sys2Proof.Machine

/-! SUPPORT. Control flow (40_control_flow.md): jumps, skips, and the two instructions of the call stack. -/

namespace Sys2Proof.Machine

/-! ### The call stack (R101, R103, R109) -/

theorem execCall_of_lt {s : State} (nnn : Addr12) (h : s.sp < 16) :
    execCall nnn s = complete (setPc (push s s.pc) (zext16 nnn)) := if_neg (Nat.not_le.mpr h)

theorem execCall_of_le {s : State} (nnn : Addr12) (h : 16 ≤ s.sp) :
    execCall nnn s = raise .stackOverflow s := if_pos h

theorem toNat_zext16_addr12 (nnn : Addr12) : (zext16 nnn).toNat = nnn.toNat :=
  BitVec.toNat_setWidth_of_le (by decide)

/-- Settles O13: the stack is empty or has a top entry, and the underflow halts under either policy. -/
theorem returnPopsOrUnderflows : Obligations.ReturnPopsOrUnderflows :=
  fun _ => ⟨fun _ _ h => execRet_of_concat h, fun h => execRet_of_nil h⟩

/-- Settles O14: the depth decides, and the overflow halts under either policy. -/
theorem callPushesOrOverflows : Obligations.CallPushesOrOverflows := by
  refine fun s nnn => ⟨fun h => ?_, fun h => execCall_of_le nnn h⟩
  exact ⟨_, execCall_of_lt nnn h, toNat_zext16_addr12 nnn, rfl⟩

theorem step_of_call {s : State} {nnn : Addr12} (hf : s.fault = none)
    (hd : decode (fetch s) = .ok (.call nnn)) (h : s.sp < 16) :
    step s = .next { s with pc := zext16 nnn, stack := s.stack ++ [s.pc + 2], outcome := .ok } :=
  (step_of_decode_ok hf hd).trans (execCall_of_lt (s := advance s) nnn h)

theorem step_of_ret {s : State} {rest : List Word} {w : Word} (hf : s.fault = none)
    (hd : decode (fetch s) = .ok .ret) (h : s.stack = rest ++ [w]) :
    step s = .next { s with pc := w, stack := rest, outcome := .ok } :=
  (step_of_decode_ok hf hd).trans (execRet_of_concat (s := advance s) h)

/-- Settles O15: CALL changes no memory, so its target still fetches RET, which pops the pushed address. -/
theorem callThenReturnRestoresPc : Obligations.CallThenReturnRestoresPc := by
  refine fun s nnn hf hcall => ⟨fun h hret => ?_, fun h => ?_⟩
  · exact ⟨_, _, step_of_call hf hcall h, step_of_ret hf hret rfl, rfl⟩
  · have hstep : step s = raise .stackOverflow (advance s) :=
      (step_of_decode_ok hf hcall).trans (execCall_of_le (s := advance s) nnn h)
    exact ⟨_, hstep, rfl, rfl, rfl⟩

/-- Settles O45: pushing and popping are the only effects that change the call stack. -/
theorem stepsChangeTheStackOnlyByCallAndReturn :
    Obligations.StepsChangeTheStackOnlyByCallAndReturn := by
  intro s t h hne
  obtain ⟨i, hd, heff, hne⟩ := exists_execEffect_of_field_ne State.stack (fun _ _ _ _ => rfl) h hne
  cases heff with
  | pushes nnn hsp => exact .inl ⟨nnn, hd, rfl⟩
  | pops rest w hstack => exact .inr ⟨hd, hstack⟩
  | _ => exact absurd rfl hne

/-! ### Skips and jumps (R100, R104 to R108) -/

theorem complete_skipIf (s : State) (b : Bool) :
    complete (skipIf b s) = .next { s with pc := if b then s.pc + 2 else s.pc, outcome := .ok } := by
  cases b <;> rfl

theorem complete_skipIf_beq (s : State) (a b : Byte) :
    complete (skipIf (a == b) s) =
      .next { s with pc := if a = b then s.pc + 2 else s.pc, outcome := .ok } := by
  simp only [complete_skipIf, beq_iff_eq]

theorem complete_skipIf_bne (s : State) (a b : Byte) :
    complete (skipIf (a != b) s) =
      .next { s with pc := if a = b then s.pc else s.pc + 2, outcome := .ok } := by
  simp only [complete_skipIf, bne_iff_ne, ne_eq, ite_not]

/-- Settles O16: each form is a skip on equal or on different operands. -/
theorem compareSkipsAdvanceOnePlace : Obligations.CompareSkipsAdvanceOnePlace :=
  ⟨fun _ _ _ => ⟨complete_skipIf_beq _ _ _, complete_skipIf_bne _ _ _⟩,
    fun _ _ _ => ⟨complete_skipIf_beq _ _ _, complete_skipIf_bne _ _ _⟩⟩

/-- The sum of a byte and an address is at most 4350, so it fits 16 bits (R108). -/
theorem toNat_zext16_byte_add_addr12 (v : Byte) (nnn : Addr12) :
    (zext16 v + zext16 nnn).toNat = v.toNat + nnn.toNat := by
  have hv : (zext16 v).toNat = v.toNat := BitVec.toNat_setWidth_of_le (by decide)
  rw [BitVec.toNat_add, hv, toNat_zext16_addr12]
  omega

/-- Settles O17: neither the widening nor the sum loses a bit. -/
theorem jumpsReachTheirExactTarget : Obligations.JumpsReachTheirExactTarget := by
  intro nnn s
  exact ⟨⟨_, rfl, rfl, toNat_zext16_addr12 nnn⟩, ⟨_, rfl, rfl, toNat_zext16_byte_add_addr12 _ nnn⟩⟩

end Sys2Proof.Machine

/-! SUPPORT. Registers and arithmetic (41_alu.md): the two ways an ALU instruction writes its result, and what
its flag and its result are in arithmetic on the operands' values. -/

namespace Sys2Proof.Machine

/-! ### Writing Vx alone, and writing Vx and then VF (R137) -/

theorem setsOnlyReg_of_exec {i : Instr} {s : State} {x : RegIdx} {b : Byte}
    (h : exec i s = complete (writeReg s x b)) : SetsOnlyReg i s x b :=
  ⟨_, h, rfl, readReg_writeReg_self s x b, fun _ hj => readReg_writeReg_of_ne s b hj⟩

theorem setsRegAndFlag_of_exec {i : Instr} {s : State} {x : RegIdx} {r : Byte} {f : Bool}
    {flag : Prop} (h : exec i s = complete (writeResultAndFlag s x r f)) (hf : f = true ↔ flag) :
    SetsRegAndFlag i s x r flag := by
  have hread := fun j => readReg_writeResultAndFlag s x j r f
  refine ⟨_, h, rfl, fun hset => ?_, fun hclear => ?_, fun hx => ?_, fun j hj hflag => ?_⟩
  · exact (hread 15).trans (if_pos (hf.mpr hset))
  · exact (hread 15).trans (if_neg (mt hf.mp hclear))
  · exact (hread x).trans ((if_neg hx).trans (if_pos rfl))
  · exact (hread j).trans ((if_neg hflag).trans (if_neg hj))

/-! ### The flags in arithmetic (R138 to R142) -/

theorem carryOut_eq_true_iff (a b : Byte) : carryOut a b = true ↔ 255 < a.toNat + b.toNat :=
  decide_eq_true_iff

theorem noBorrow_eq_true_iff (a b : Byte) : noBorrow a b = true ↔ a.toNat ≥ b.toNat :=
  decide_eq_true_iff

theorem lowBit_eq_true_iff (a : Byte) : lowBit a = true ↔ a.toNat % 2 = 1 := by
  have hbit : lowBit a = decide (a.toNat % 2 = 1) := Nat.testBit_zero a.toNat
  rw [hbit, decide_eq_true_iff]

theorem highBit_eq_true_iff (a : Byte) : highBit a = true ↔ 128 ≤ a.toNat := by
  have hmsb : highBit a = a.msb := (BitVec.msb_eq_getLsbD_last a).symm
  rw [hmsb, BitVec.msb_eq_decide, decide_eq_true_iff]

/-! ### The results in arithmetic (R144) -/

theorem toNat_byte_sub (a b : Byte) : ((a - b).toNat : Int) = (a.toNat - b.toNat : Int) % 256 := by
  rw [BitVec.toNat_sub]
  omega

theorem toNat_byte_shiftRight_one (a : Byte) : (a >>> 1).toNat = a.toNat / 2 := by
  rw [BitVec.toNat_ushiftRight, Nat.shiftRight_one]

theorem toNat_byte_shiftLeft_one (a : Byte) : (a <<< 1).toNat = 2 * a.toNat % 256 := by
  rw [BitVec.toNat_shiftLeft, Nat.shiftLeft_eq, pow_one, Nat.mul_comm]

/-! ### The instructions -/

/-- Settles O21: bytes add modulo 256, and the flag is the carry of the exact sum. -/
theorem addSetsCarry : Obligations.AddSetsCarry :=
  fun _ _ _ => ⟨_, BitVec.toNat_add .., setsRegAndFlag_of_exec rfl (carryOut_eq_true_iff ..)⟩

/-- Settles O22: SUBN is the difference of SUB with its operands exchanged. -/
theorem subtractsSetNoBorrow : Obligations.SubtractsSetNoBorrow := by
  intro x y s
  constructor
  · exact ⟨_, toNat_byte_sub .., setsRegAndFlag_of_exec rfl (noBorrow_eq_true_iff ..)⟩
  · exact ⟨_, toNat_byte_sub .., setsRegAndFlag_of_exec rfl (noBorrow_eq_true_iff ..)⟩

/-- Settles O23: the lost bits are the lowest and the highest, and neither meaning mentions `y`. -/
theorem shiftsSetTheLostBit : Obligations.ShiftsSetTheLostBit := by
  refine fun x y s => ⟨?_, ?_, fun z => ⟨rfl, rfl⟩⟩
  · exact ⟨_, toNat_byte_shiftRight_one _, setsRegAndFlag_of_exec rfl (lowBit_eq_true_iff _)⟩
  · exact ⟨_, toNat_byte_shiftLeft_one _, setsRegAndFlag_of_exec rfl (highBit_eq_true_iff _)⟩

/-- Settles O18: each load completes with one register write. -/
theorem loadsSetOneRegister : Obligations.LoadsSetOneRegister :=
  fun _ _ _ _ => ⟨setsOnlyReg_of_exec rfl, setsOnlyReg_of_exec rfl, setsOnlyReg_of_exec rfl⟩

/-- Settles O19: bytes combine bit by bit, and the result is the only register written. -/
theorem logicWorksBitByBit : Obligations.LogicWorksBitByBit := by
  intro x y s
  refine ⟨⟨_, setsOnlyReg_of_exec rfl, fun i => ?_⟩, ⟨_, setsOnlyReg_of_exec rfl, fun i => ?_⟩,
    ⟨_, setsOnlyReg_of_exec rfl, fun i => ?_⟩⟩
  · exact BitVec.getLsbD_or
  · exact BitVec.getLsbD_and
  · exact BitVec.getLsbD_xor

/-- Settles O20: bytes add modulo 256, and the result is the only register written. -/
theorem addImmediateWrapsWithoutFlag : Obligations.AddImmediateWrapsWithoutFlag :=
  fun _ _ _ => ⟨_, setsOnlyReg_of_exec rfl, BitVec.toNat_add ..⟩

/-- Settles O24: the draw changes the source alone, and the masked byte is the only register written. -/
theorem randomIsMaskedAndDrawsOnce : Obligations.RandomIsMaskedAndDrawsOnce := by
  intro x kk s
  have hexec : exec (.rnd x kk) s =
      complete (writeReg (randomByte s).2 x (Config.randomByte s.seed s.draws &&& kk)) := rfl
  refine ⟨_, hexec, rfl, ?_, fun i hmask => ?_, fun j hj => ?_⟩
  · exact readReg_writeReg_self ..
  · rw [report_readReg, readReg_writeReg_self, BitVec.getLsbD_and, hmask, Bool.and_false]
  · exact readReg_writeReg_of_ne _ _ hj

end Sys2Proof.Machine

/-! SUPPORT. The index register and memory (42_index_memory.md): what `I` becomes, and where the digits and the
registers that are stored from `I` on can be read back, by a load and by a fetch. -/

namespace Sys2Proof.Machine

/-! ### What `I` becomes (R161 to R163) -/

/-- `80 + 5 * 255` fits 16 bits, so the glyph's address is exact (R163). -/
theorem toNat_glyphAddr (v : Byte) : (glyphAddr v).toNat = 80 + 5 * v.toNat :=
  Nat.mod_eq_of_lt (by simp only [Config.fontBase, Config.fontGlyphBytes]; omega)

theorem toNat_add_zext16_byte (w : Word) (v : Byte) :
    (w + zext16 v).toNat = (w.toNat + v.toNat) % 65536 := by
  rw [BitVec.toNat_add, BitVec.toNat_setWidth_of_le (by decide)]

/-- Settles O25: the 12 bits of the address widen without loss. -/
theorem loadIndexSetsI : Obligations.LoadIndexSetsI :=
  fun nnn _ => ⟨_, rfl, rfl, toNat_zext16_addr12 nnn⟩

/-- Settles O26: 16-bit words add modulo 2^16, and the glyph's address is exact. -/
theorem indexArithmeticWritesIAlone : Obligations.IndexArithmeticWritesIAlone := by
  intro x s
  constructor
  · exact ⟨_, rfl, rfl, toNat_add_zext16_byte ..⟩
  · exact ⟨_, rfl, rfl, toNat_glyphAddr _⟩

/-- Settles O30: glyph `d` begins at font byte `5 * d`, and setting `I` leaves memory alone. -/
theorem fontPointerFindsTheGlyph : Obligations.FontPointerFindsTheGlyph := by
  intro x s _ hfont
  refine ⟨_, rfl, fun k j _ hj => ?_⟩
  have haddr : (glyphAddr (readReg s x)).toNat + k = 80 + j.val := by
    rw [toNat_glyphAddr, hj, Nat.add_assoc]
  rw [report_memRead, setI_memRead, report_I, setI_I, haddr, hfont]

/-! ### The decimal digits (R164) -/

theorem toNat_hundreds (v : Byte) : (hundreds v).toNat = v.toNat / 100 := Nat.mod_eq_of_lt (by omega)

theorem toNat_tens (v : Byte) : (tens v).toNat = v.toNat / 10 % 10 := Nat.mod_eq_of_lt (by omega)

theorem toNat_ones (v : Byte) : (ones v).toNat = v.toNat % 10 := Nat.mod_eq_of_lt (by omega)

/-- The three stores of Fx33 reach different cells, so none overwrites a digit stored before it (R164). -/
theorem digits_of_execLdB {x : RegIdx} {s t : State} (h : execLdB x s = .next t) :
    memRead t (indexedAddr s 0) = hundreds (readReg s x) ∧
    memRead t (indexedAddr s 1) = tens (readReg s x) ∧
    memRead t (indexedAddr s 2) = ones (readReg s x) := by
  have h01 : memAddr (indexedAddr s 0) ≠ memAddr (indexedAddr s 1) :=
    mt (memAddr_indexed_inj (i := 0) (j := 1)) (by decide)
  have h02 : memAddr (indexedAddr s 0) ≠ memAddr (indexedAddr s 2) :=
    mt (memAddr_indexed_inj (i := 0) (j := 2)) (by decide)
  have h12 : memAddr (indexedAddr s 1) ≠ memAddr (indexedAddr s 2) :=
    mt (memAddr_indexed_inj (i := 1) (j := 2)) (by decide)
  cases h
  simp [memRead_memWrite, h01, h02, h12]

/-- Settles O27: each digit stands where it was stored, and the other bytes keep their values. -/
theorem decimalDigitsAreStored : Obligations.DecimalDigitsAreStored := by
  intro x s
  obtain ⟨hhundreds, htens, hones⟩ := digits_of_execLdB (x := x) (s := s) rfl
  refine ⟨_, rfl, rfl, ?_, ?_, ?_, fun a ha => memRead_of_execLdB (x := x) rfl ha⟩
  · exact (congrArg BitVec.toNat hhundreds).trans (toNat_hundreds _)
  · exact (congrArg BitVec.toNat htens).trans (toNat_tens _)
  · exact (congrArg BitVec.toNat hones).trans (toNat_ones _)

/-! ### The stores of Fx55 and the loads of Fx65 (R165, R166) -/

/-- After Fx55 the byte at `I + i` is V[i], up to `x` (R165). -/
theorem memRead_stRegs {x i : RegIdx} (s : State) (hi : i ≤ x) :
    memRead ((regsUpTo x).foldl storeReg s) (s.I.toNat + i.val) = readReg s i :=
  memRead_foldl_storeReg_of_mem _ (regsUpTo_nodup x) s (mem_regsUpTo.mpr hi) _ rfl

theorem execStRegs_frame (x : RegIdx) (s : State) :
    execStRegs x s = .next { s with mem := ((regsUpTo x).foldl storeReg s).mem, outcome := .ok } := by
  rw [execStRegs, foldl_storeReg_frame, complete_eq_next, report]

theorem execLdRegs_frame (x : RegIdx) (s : State) :
    execLdRegs x s = .next { s with v := ((regsUpTo x).foldl loadReg s).v, outcome := .ok } := by
  rw [execLdRegs, foldl_loadReg_frame, complete_eq_next, report]

/-- Settles O28: the stores reach different cells and change memory alone. -/
theorem registersAreStoredFromI : Obligations.RegistersAreStoredFromI := by
  intro x s
  refine ⟨_, execStRegs_frame x s, rfl, fun i hi => memRead_stRegs s hi, fun a ha => ?_⟩
  exact memRead_of_execStRegs (execStRegs_frame x s) ha

/-- Settles O29: the loads change neither memory nor `I`, so each reads what stood there before. -/
theorem registersAreLoadedFromI : Obligations.RegistersAreLoadedFromI := by
  intro x s
  refine ⟨_, execLdRegs_frame x s, rfl, fun i => ?_⟩
  exact (readReg_foldl_loadReg (regsUpTo x) s i).trans (if_congr mem_regsUpTo rfl rfl)

/-- 4096 divides 2^16, so the wrap of a 16-bit sum does not move the address that it reaches (R54). -/
theorem memAddr_toNat_add_ofNat (w : Word) (n : Nat) :
    memAddr (w + BitVec.ofNat 16 n).toNat = memAddr (w.toNat + n) := by
  simp only [memAddr, Config.memSize, BitVec.toNat_add, BitVec.toNat_ofNat]
  omega

/-- Settles O31: fetch reads the same memory that Fx55 stores to, at `I + i` and the address after it. -/
theorem fetchSeesStoredRegisters : Obligations.FetchSeesStoredRegisters := by
  intro x i j s hij hj
  have hi : i ≤ x := (Fin.le_def.mpr (hij ▸ Nat.le_succ i.val)).trans hj
  have hlo : memRead ((regsUpTo x).foldl storeReg s) (s.I.toNat + i.val + 1) = readReg s j := by
    rw [Nat.add_assoc, ← hij, memRead_stRegs s hj]
  refine ⟨_, execStRegs_frame x s, ?_⟩
  rw [fetch_of_memAddr (memAddr_toNat_add_ofNat s.I i.val)]
  exact congrArg₂ wordOfBytes (memRead_stRegs s hi) hlo

end Sys2Proof.Machine

/-! SUPPORT. Graphics (43_graphics.md): what a draw does to a cell, to VF and to the other registers, said
once in terms of the cells that the sprite covers. -/

namespace Sys2Proof.Machine

/-- Settles O32: clearing changes the framebuffer alone, and a cleared cell is off. -/
theorem clearTurnsEveryCellOff : Obligations.ClearTurnsEveryCellOff :=
  fun _ => ⟨_, rfl, rfl, fbCell_clear⟩

/-! ### The cells under the set bits (R181 to R183) -/

/-- The list that a draw toggles holds exactly the covered cells. -/
theorem mem_spriteCells_iff_spriteCovers {s : State} {x y : RegIdx} {n : Nat} {c : Fin 64} {r : Fin 32} :
    (c, r) ∈ spriteCells s (readReg s x) (readReg s y) n ↔ SpriteCovers s x y n c r := by
  simp only [mem_spriteCells, SpriteCovers, Prod.mk.injEq, Fin.ext_iff, spriteBit, indexedAddr, wrapCol,
    wrapRow, Fin.val_ofNat]

/-- Which cells a sprite covers depends on memory, `I` and the two coordinates alone. -/
theorem spriteCovers_congr {s t : State} {x y : RegIdx} (hmem : t.mem = s.mem) (hI : t.I = s.I)
    (hx : readReg t x = readReg s x) (hy : readReg t y = readReg s y) (n : Nat) (c : Fin 64)
    (r : Fin 32) : SpriteCovers t x y n c r ↔ SpriteCovers s x y n c r := by
  simp only [SpriteCovers, memRead, hmem, hI, hx, hy]

/-! ### What a draw does (R181) -/

theorem flagByte_eq_one_iff (b : Bool) : flagByte b = 1 ↔ b = true := by cases b <;> decide

theorem flagByte_eq_zero_iff (b : Bool) : flagByte b = 0 ↔ ¬ b = true := by cases b <;> decide

section
variable {x y : RegIdx} {n : Fin 16} {s t : State}

/-- A draw changes the framebuffer and the registers, and reports Ok. -/
theorem drw_frame (h : exec (.drw x y n) s = .next t) :
    t = { s with fb := t.fb, v := t.v, outcome := .ok } := by
  cases h
  rfl

theorem readReg_of_drw (h : exec (.drw x y n) s = .next t) {j : RegIdx} (hj : j ≠ 15) :
    readReg t j = readReg s j := by
  cases h
  exact readReg_writeReg_of_ne _ _ hj

theorem pixel_of_drw (h : exec (.drw x y n) s = .next t) (c : Fin 64) (r : Fin 32) :
    pixel t c r =
      (pixel s c r ^^ decide ((c, r) ∈ spriteCells s (readReg s x) (readReg s y) n.val)) := by
  cases h
  exact fbCell_plotAll _ _ (spriteCells_nodup _ _ _ n.isLt.le) c r

theorem pixel_of_drw_of_spriteCovers (h : exec (.drw x y n) s = .next t) {c : Fin 64} {r : Fin 32}
    (hc : SpriteCovers s x y n.val c r) : pixel t c r = !pixel s c r := by
  rw [pixel_of_drw h, decide_eq_true (mem_spriteCells_iff_spriteCovers.mpr hc), Bool.xor_true]

theorem pixel_of_drw_of_not_spriteCovers (h : exec (.drw x y n) s = .next t) {c : Fin 64} {r : Fin 32}
    (hc : ¬ SpriteCovers s x y n.val c r) : pixel t c r = pixel s c r := by
  rw [pixel_of_drw h, decide_eq_false (mt mem_spriteCells_iff_spriteCovers.mp hc), Bool.xor_false]

/-- VF after a draw is the collision: whether a covered cell was on before. -/
theorem exists_flag_of_drw (h : exec (.drw x y n) s = .next t) :
    ∃ b : Bool, readReg t 15 = flagByte b ∧
      (b = true ↔ ∃ c r, SpriteCovers s x y n.val c r ∧ pixel s c r = true) := by
  cases h
  refine ⟨_, readReg_writeReg_self _ _ _, ?_⟩
  rw [plotAll_collision _ _ (spriteCells_nodup _ _ _ n.isLt.le), List.any_eq_true, Prod.exists]
  simp only [mem_spriteCells_iff_spriteCovers, pixel]

theorem drw_flag_eq_one_iff (h : exec (.drw x y n) s = .next t) :
    readReg t 15 = 1 ↔ ∃ c r, SpriteCovers s x y n.val c r ∧ pixel s c r = true := by
  obtain ⟨b, hb, hiff⟩ := exists_flag_of_drw h
  rw [hb, flagByte_eq_one_iff, hiff]

theorem drw_flag_eq_zero_iff (h : exec (.drw x y n) s = .next t) :
    readReg t 15 = 0 ↔ ¬ ∃ c r, SpriteCovers s x y n.val c r ∧ pixel s c r = true := by
  obtain ⟨b, hb, hiff⟩ := exists_flag_of_drw h
  rw [hb, flagByte_eq_zero_iff, hiff]

/-- With neither coordinate in VF, a second draw covers the same cells (R184). -/
theorem spriteCovers_of_drw (h : exec (.drw x y n) s = .next t) (hx : x ≠ 15) (hy : y ≠ 15)
    (c : Fin 64) (r : Fin 32) : SpriteCovers t x y n.val c r ↔ SpriteCovers s x y n.val c r := by
  have hmem : t.mem = s.mem := by rw [drw_frame h]
  have hI : t.I = s.I := by rw [drw_frame h]
  exact spriteCovers_congr hmem hI (readReg_of_drw h hx) (readReg_of_drw h hy) n.val c r

end

/-- Settles O33: the covered cells are distinct, so each is toggled once. -/
theorem drawTogglesTheCoveredCells : Obligations.DrawTogglesTheCoveredCells := by
  intro x y n s
  obtain ⟨t, h, -⟩ := exec_answers (.drw x y n) s
  exact ⟨t, h, drw_frame h, fun _ _ => pixel_of_drw_of_spriteCovers h,
    fun _ _ => pixel_of_drw_of_not_spriteCovers h, (drw_flag_eq_one_iff h).mpr,
    (drw_flag_eq_zero_iff h).mpr, fun _ => readReg_of_drw h⟩

/-- Settles O34: the second draw toggles the same cells back, and meets one that is on where the first met
one that was off. -/
theorem drawingTwiceRestoresTheScreen : Obligations.DrawingTwiceRestoresTheScreen := by
  intro x y n s hx hy
  obtain ⟨t, ht, -⟩ := exec_answers (.drw x y n) s
  obtain ⟨u, hu, -⟩ := exec_answers (.drw x y n) t
  have hcovers := spriteCovers_of_drw ht hx hy
  refine ⟨t, u, ht, hu, fb_ext fun c r => show pixel u c r = pixel s c r from ?_, ?_⟩
  · by_cases hc : SpriteCovers s x y n.val c r
    · rw [pixel_of_drw_of_spriteCovers hu ((hcovers c r).mpr hc), pixel_of_drw_of_spriteCovers ht hc,
        Bool.not_not]
    · rw [pixel_of_drw_of_not_spriteCovers hu (mt (hcovers c r).mp hc),
        pixel_of_drw_of_not_spriteCovers ht hc]
  · rw [drw_flag_eq_one_iff hu]
    refine exists_congr fun c => exists_congr fun r => ?_
    rw [hcovers]
    refine and_congr_right fun hc => ?_
    rw [pixel_of_drw_of_spriteCovers ht hc, Bool.not_eq_true']

/-- Settles O35: a cleared and a fresh framebuffer are the same, and a draw reads nothing but the framebuffer,
the registers, `I` and memory. -/
theorem drawAfterClearIsAsOnAFreshMachine : Obligations.DrawAfterClearIsAsOnAFreshMachine := by
  intro x y n s
  have hoff : ∀ c r, pixel (report .ok (clearFb s)) c r = false := fbCell_clear
  obtain ⟨u, hu, -⟩ := exec_answers (.drw x y n) (report .ok (clearFb s))
  refine ⟨_, u, _, rfl, hu, rfl, ?_, ?_, (drw_flag_eq_zero_iff hu).mpr ?_, fun c r => ?_⟩
  · cases hu
    rfl
  · cases hu
    rfl
  · rintro ⟨c, r, -, hon⟩
    rw [hoff] at hon
    cases hon
  · have hcovers : SpriteCovers (report .ok (clearFb s)) x y n.val c r ↔ SpriteCovers s x y n.val c r :=
      spriteCovers_congr rfl rfl rfl rfl n.val c r
    by_cases hc : SpriteCovers s x y n.val c r
    · simp [pixel_of_drw_of_spriteCovers hu (hcovers.mpr hc), hoff, hc]
    · simp [pixel_of_drw_of_not_spriteCovers hu (mt hcovers.mp hc), hoff, hc]

end Sys2Proof.Machine

/-! SUPPORT. Keypad and timers (44_input_timers.md): the key a register names, the two ways a wait for a key
goes, and the instructions that set a timer. -/

namespace Sys2Proof.Machine

/-! ### The key skips (R200 to R202) -/

theorem keyIndex_eq {b : Byte} {k : Fin 16} (h : k.val = b.toNat % 16) : keyIndex b = k :=
  Fin.ext h.symm

theorem complete_skipIf_not (s : State) (b : Bool) :
    complete (skipIf (!b) s) = .next { s with pc := if b then s.pc else s.pc + 2, outcome := .ok } := by
  cases b <;> rfl

/-- Settles O36: both forms test the key that the register names, SKNP for its negation. -/
theorem keySkipsTestKeyModSixteen : Obligations.KeySkipsTestKeyModSixteen := by
  intro x k s hk
  rw [← keyIndex_eq hk]
  exact ⟨complete_skipIf s _, complete_skipIf_not s _⟩

/-! ### Waiting for a key (R203, R234) -/

theorem execLdVxK_of_some {s : State} {k : Fin 16} (x : RegIdx) (h : lowestPressed s = some k) :
    execLdVxK x s = complete (writeReg s x (BitVec.ofNat 8 k.val)) := by
  rw [execLdVxK, h]

theorem execLdVxK_of_none {s : State} (x : RegIdx) (h : lowestPressed s = none) :
    execLdVxK x s = waitForKey (rewind s) := by
  rw [execLdVxK, h]

/-- Settles O37: the latch has a lowest pressed key, whose index fits a byte, or no pressed key. -/
theorem keyWaitTakesTheLowestKeyOrRewinds : Obligations.KeyWaitTakesTheLowestKeyOrRewinds := by
  refine fun x s => ⟨fun k hk hlower => ?_, fun hnone => ?_⟩
  · have hlowest : lowestPressed s = some k := lowestPressed_eq_some.mpr ⟨hk, hlower⟩
    have hfits : (BitVec.ofNat 8 k.val).toNat = k.val := Nat.mod_eq_of_lt (by omega)
    exact ⟨_, hfits, setsOnlyReg_of_exec (execLdVxK_of_some x hlowest)⟩
  · exact execLdVxK_of_none x (lowestPressed_eq_none.mpr hnone)

/-! ### The timers (R205, R206) -/

/-- Settles O38: each form completes with its timer set, and the completion reports Ok alone. -/
theorem timersAreSetFromARegister : Obligations.TimersAreSetFromARegister := by
  intro x s
  constructor
  · exact complete_eq_next (setDT s (readReg s x))
  · exact complete_eq_next (setST s (readReg s x))

end Sys2Proof.Machine

/-! SUPPORT. The contract with the host (60_exceptions.md): its two actions between steps, the outcome that
each step reports, the stop points, and runs from a construction. -/

namespace Sys2Proof.Machine

/-! ### SetKey and TimerTick (R240, R244) -/

theorem keyPressed_setKey (s : State) (k j : Fin 16) (b : Bool) :
    keyPressed (setKey s k b) j = if j = k then b else keyPressed s j := by
  simp only [keyPressed, setKey_keys, Vector.get_eq_getElem, Vector.getElem_set, Fin.val_inj,
    eq_comm (a := k)]

theorem step_keys {s t : State} (h : step s = .next t) : t.keys = s.keys := by
  by_contra hne
  obtain ⟨i, -, heff, hne⟩ := exists_execEffect_of_field_ne State.keys (fun _ _ _ _ => rfl) h hne
  cases heff <;> exact hne rfl

/-- Settles O47: SetKey sets one entry of the latch, and no effect of a step changes the latch. -/
theorem setKeyIsTheOnlyWriterOfTheLatch : Obligations.SetKeyIsTheOnlyWriterOfTheLatch :=
  fun s => ⟨fun k b => ⟨rfl, fun j => keyPressed_setKey s k j b⟩, fun _ => step_keys, timerTick_keys s⟩

/-- The truncated subtraction of `Nat` keeps a timer at 0, as R240 does. -/
theorem toNat_tickTimer (t : Byte) : (tickTimer t).toNat = t.toNat - 1 := by
  rw [tickTimer]
  split_ifs with h
  · rw [h]; rfl
  · bv_omega

/-- Settles O48: the tick is the same for both timers. -/
theorem timerTickDecrementsTowardZero : Obligations.TimerTickDecrementsTowardZero :=
  fun s => ⟨rfl, toNat_tickTimer s.dt, toNat_tickTimer s.st⟩

/-! ### The outcome of a step (R220, R228) -/

theorem outcome_of_execRet {s t : State} (h : execRet s = .next t) :
    t.outcome = if s.sp = 0 then .raised .stackUnderflow else .ok := by
  rcases List.eq_nil_or_concat' s.stack with hs | ⟨rest, w, hs⟩
  · rw [execRet_of_nil hs] at h
    cases h
    simp [State.sp, hs]
  · rw [execRet_of_concat hs] at h
    cases h
    simp [State.sp, hs]

theorem outcome_of_execCall {nnn : Addr12} {s t : State} (h : execCall nnn s = .next t) :
    t.outcome = if 16 ≤ s.sp then .raised .stackOverflow else .ok := by
  rw [execCall] at h
  split_ifs at h with hsp
  · cases h; exact (if_pos hsp).symm
  · cases h; exact (if_neg hsp).symm

theorem outcome_of_execLdVxK {x : RegIdx} {s t : State} (h : execLdVxK x s = .next t) :
    t.outcome = if ∀ k, keyPressed s k = false then .keyWait else .ok := by
  match hlow : lowestPressed s with
  | some k =>
    rw [execLdVxK_of_some x hlow] at h
    cases h
    obtain ⟨hk, -⟩ := lowestPressed_eq_some.mp hlow
    exact (if_neg fun hnone => by simp [hnone k] at hk).symm
  | none =>
    rw [execLdVxK_of_none x hlow] at h
    cases h
    exact (if_pos (lowestPressed_eq_none.mp hlow)).symm

/-- An executed instruction reports its own condition or Ok; the advance changes nothing that a condition
looks at. -/
theorem outcome_of_exec_advance {i : Instr} {s t : State} (hf : s.fault = none)
    (hd : decode (fetch s) = .ok i) (h : exec i (advance s) = .next t) :
    t.outcome = expectedOutcome s := by
  cases i with
  | ret =>
    simp only [expectedOutcome, hf, hd]
    exact outcome_of_execRet (s := advance s) h
  | call nnn =>
    simp only [expectedOutcome, hf, hd]
    exact outcome_of_execCall (s := advance s) h
  | ldVxK x =>
    simp only [expectedOutcome, hf, hd]
    exact outcome_of_execLdVxK (s := advance s) h
  | _ =>
    cases h
    simp only [expectedOutcome, hf, hd]
    rfl

/-- Settles O11, by the order of the checks: the fault, the decode, the instruction's own condition. -/
theorem stepReportsTheOutcomeOfTheCheckOrder : Obligations.StepReportsTheOutcomeOfTheCheckOrder := by
  intro s
  match hf : s.fault, hd : decode (fetch s) with
  | some c, _ => exact ⟨_, step_of_fault hf, by simp only [expectedOutcome, hf, report_outcome]⟩
  | none, .error e =>
    exact ⟨_, step_of_decode_error hf hd, by simp only [expectedOutcome, hf, hd, raiseUnder_outcome]⟩
  | none, .ok i =>
    obtain ⟨t, ht, -⟩ := exec_answers i (advance s)
    exact ⟨t, (step_of_decode_ok hf hd).trans ht, outcome_of_exec_advance hf hd ht⟩

/-! ### Stop points (R249) -/

theorem run_succ_of_step {s t : State} (h : step s = .next t) (n : Nat) :
    core.run (n + 1) s = core.run n t := by
  have hcore : core.step s = .next t := h
  simp only [Host.Core.run, hcore]

/-- Once a step answers a state that steps to itself, every longer run answers it too. -/
theorem run_succ_of_fixed {s t : State} (h : step s = .next t) (hfix : step t = .next t) (n : Nat) :
    core.run (n + 1) s = .next t := by
  induction n generalizing s with
  | zero => exact run_succ_of_step h 0
  | succ n ih => exact (run_succ_of_step h (n + 1)).trans (ih hfix)

theorem step_of_faulted {s : State} (h : s.Faulted) : step s = .next { s with outcome := .halted } := by
  obtain ⟨c, hc⟩ := Option.ne_none_iff_exists'.mp h
  exact step_of_fault hc

/-- The jump to its own address takes back the advance. -/
theorem step_of_idleLoop {s : State} (h : s.IdleLoop) : step s = .next { s with outcome := .ok } := by
  obtain ⟨hf, nnn, hd, hpc⟩ := h
  have hback : setPc (advance s) (zext16 nnn) = s := by rw [hpc]; rfl
  exact (step_of_decode_ok hf hd).trans (congrArg complete hback)

/-- The rewind of Fx0A takes back the advance. -/
theorem step_of_keyWait {s : State} (h : s.KeyWait) :
    step s = .next { s with outcome := .keyWait } := by
  obtain ⟨hf, x, hd, hkeys⟩ := h
  have hback : rewind (advance s) = s := by simp [rewind, forward]
  have hwait : exec (.ldVxK x) (advance s) = waitForKey (rewind (advance s)) :=
    execLdVxK_of_none x (lowestPressed_eq_none.mpr hkeys)
  exact (step_of_decode_ok hf hd).trans (hwait.trans (congrArg waitForKey hback))

/-- Settles O52: a stop point does not look at `outcome`, so the state after one step is the same stop point
and steps to itself. -/
theorem stopPointsHoldStill : Obligations.StopPointsHoldStill := by
  intro s n
  refine ⟨fun h => ?_, fun h => ?_, fun h => ?_⟩
  · exact run_succ_of_fixed (step_of_faulted h)
      (step_of_faulted (s := { s with outcome := .halted }) h) n
  · exact run_succ_of_fixed (step_of_idleLoop h)
      (step_of_idleLoop (s := { s with outcome := .ok }) h) n
  · exact run_succ_of_fixed (step_of_keyWait h)
      (step_of_keyWait (s := { s with outcome := .keyWait }) h) n

/-! ### Runs (R243, R265) -/

/-- Every run from a state that meets the invariant answers a next state that meets it. -/
theorem State.Inv.runEvents {s : State} (hs : s.Inv) (events : List Event) :
    ∃ t, runEvents s events = .next t ∧ t.Inv := by
  induction events generalizing s with
  | nil => exact ⟨s, rfl, hs⟩
  | cons e rest ih =>
    obtain ⟨u, hu, huInv⟩ := everyEventKeepsInv s e hs
    obtain ⟨t, ht, htInv⟩ := ih huInv
    refine ⟨t, ?_, htInv⟩
    rw [Machine.runEvents, hu]
    exact ht

/-- Settles O56: a construction meets the invariant, and the run keeps it. -/
theorem everyRunFromConstructionKeepsInv : Obligations.EveryRunFromConstructionKeepsInv :=
  fun image seed s events h => (everyConstructionMeetsInv image seed s h).runEvents events

end Sys2Proof.Machine

/-! SUPPORT. The load (70_reset_and_hazards.md R262 to R264): what storing a list of bytes does to the machine,
and when a construction answers a machine. -/

namespace Sys2Proof.Machine

/-! ### Storing a list of bytes (R262) -/

theorem storeBytes_cons (s : State) (a : Nat) (b : Byte) (rest : List Byte) :
    storeBytes s a (b :: rest) = storeBytes (memWrite s a b) (a + 1) rest := rfl

/-- Storing bytes changes memory alone. -/
theorem storeBytes_frame (s : State) (a : Nat) (bytes : List Byte) :
    storeBytes s a bytes = { s with mem := (storeBytes s a bytes).mem } := by
  induction bytes generalizing s a with
  | nil => rfl
  | cons b rest ih =>
    rw [storeBytes_cons, ih]
    rfl

theorem memAddr_of_lt {a : Nat} (ha : a < 4096) : memAddr a = a := Nat.mod_eq_of_lt ha

/-- A byte outside the stored range keeps its value. -/
theorem memRead_storeBytes_of_outside (s : State) {a k : Nat} {bytes : List Byte}
    (hfit : a + bytes.length ≤ 4096) (hk : k < 4096) (hout : k < a ∨ a + bytes.length ≤ k) :
    memRead (storeBytes s a bytes) k = memRead s k := by
  induction bytes generalizing s a with
  | nil => rfl
  | cons b rest ih =>
    rw [List.length_cons] at hfit hout
    have hne : memAddr k ≠ memAddr a := by
      rw [memAddr_of_lt hk, memAddr_of_lt (by omega)]
      omega
    rw [storeBytes_cons, ih _ (by omega) (by omega), memRead_memWrite, if_neg hne]

/-- Byte `j` of the list stands at `a + j`: it is written there, and the later bytes go to later addresses. -/
theorem memRead_storeBytes_of_getElem? (s : State) {a j : Nat} {bytes : List Byte} {b : Byte}
    (hfit : a + bytes.length ≤ 4096) (hj : bytes[j]? = some b) :
    memRead (storeBytes s a bytes) (a + j) = b := by
  induction bytes generalizing s a j with
  | nil => cases hj
  | cons c rest ih =>
    rw [List.length_cons] at hfit
    have hfit' : a + 1 + rest.length ≤ 4096 := by omega
    rw [storeBytes_cons]
    cases j with
    | zero =>
      cases hj
      rw [memRead_storeBytes_of_outside _ hfit' (by omega) (.inl (by omega)), memRead_memWrite]
      exact if_pos rfl
    | succ j =>
      rw [Nat.add_comm j 1, ← Nat.add_assoc]
      exact ih _ hfit' hj

/-! ### Construction (R262, R263) -/

theorem construct_of_length_le {image : List Byte} (seed : Config.Seed) (h : image.length ≤ 3584) :
    construct image seed = .ok (storeBytes { State.reset with seed := seed } 512 image) :=
  if_pos (decide_eq_true h)

theorem construct_of_lt_length {image : List Byte} (seed : Config.Seed) (h : 3584 < image.length) :
    construct image seed = .error (.imageTooLarge image.length) :=
  if_neg (by simpa [imageWellFormed] using h)

/-- Settles O51: the length of the image decides between the two answers. -/
theorem loadFailsExactlyOnTooLargeImages : Obligations.LoadFailsExactlyOnTooLargeImages := by
  refine fun image seed => ⟨fun h => ?_, construct_of_lt_length seed⟩
  by_contra hle
  rw [construct_of_length_le seed (Nat.le_of_not_lt hle)] at h
  cases h

/-- Settles O50: the machine is the stored image over the fresh machine; outside the image it reads as after
reset, and past the font that is 0. -/
theorem loadCopiesTheImageVerbatim : Obligations.LoadCopiesTheImageVerbatim := by
  intro image seed hlen
  have hfit : 512 + image.length ≤ 4096 := Nat.add_le_add_left hlen 512
  refine ⟨_, construct_of_length_le seed hlen, storeBytes_frame _ _ _,
    fun j b hj => memRead_storeBytes_of_getElem? _ hfit hj, fun a hge ha => ?_, fun a ha => ?_⟩
  · have hreset : memRead State.reset a = 0 := by
      rw [memRead_reset ha, constructionByte_of_not_font (.inr (by omega))]
    rw [memRead_storeBytes_of_outside _ hfit ha (.inr hge)]
    exact congrArg BitVec.toNat hreset
  · exact memRead_storeBytes_of_outside _ hfit (by omega) (.inl ha)

end Sys2Proof.Machine

/-! SUPPORT. Words of the spec's examples (30_encoding.md section 3): since encoding and decoding are inverse to
each other, what a word decodes to is read off the encoding. -/

namespace Sys2Proof

theorem decode_eq_ok_iff {w : Word} {i : Instr} : decode w = .ok i ↔ encode i = w := by
  constructor
  · exact encodeOfDecodeIsTheWord w i
  · rintro rfl
    exact decodeOfEncodeIsTheInstruction i

/-- Settles O5: each of the seventeen words is the encoding of its instruction, and 5121 is a word of class 5
whose last nibble is not 0. -/
theorem specExampleWordsDecode : Obligations.SpecExampleWordsDecode := by
  have hunknown : decode 0x5121 = .error (.unknownOpcode 0x5121) :=
    (unknownWordsAreThoseListedByClass 0x5121).mpr (.inr (.inl (by decide)))
  refine ⟨?_, ?_, ?_, ?_, ?_, ?_, ?_, ?_, ?_, ?_, ?_, ?_, ?_, ?_, ?_, ?_, ?_, hunknown⟩
  all_goals exact decode_eq_ok_iff.mpr rfl

end Sys2Proof
